-- ==== Sys2Proof/Word.lean ====
section
/-! DEFINITION. The word types of the block: what the spec numbers bit by bit.

The block's values are unsigned (spec/00_scope.md R7); nothing is sign-extended. -/

namespace Sys2Proof

/-- One element of a byte buffer (spec/00_scope.md R9). -/
abbrev Byte := BitVec 8

/-- An operand `A` or `B`, and the result `R` (spec/00_scope.md R12). -/
abbrev Word := BitVec 32

/-- A sequence number's residue in `[0, 1024)` (spec/40_sequence_number.md R80). Its bit-vector
arithmetic is arithmetic mod 1024. -/
abbrev Residue := BitVec 10

/-- The field `OP` of a command word (spec/30_encoding.md R70). -/
abbrev Opcode := BitVec 8

/-- One command: the 72-bit word `OP ‖ A ‖ B` (spec/00_scope.md R12, spec/30_encoding.md R70). -/
abbrev CommandWord := BitVec 72

end Sys2Proof
end

