-- ==== Sys2Proof/Config.lean ====
section
/-! DEFINITION. What an implementation fixes: the constants of spec/00_scope.md R5, the two parameters
of R6 that the spec leaves open, and the model's one free value. -/

namespace Sys2Proof

/-! ### Constants of the source (R5) -/

/-- Width of a sequence-number field, `SN_BITS`. -/
@[simp] abbrev Config.snBits : Nat := 10

/-- Smallest field width of `BW.WRITE` and `BR.READ`, `MIN_WIDTH`. -/
@[simp] abbrev Config.minWidth : Nat := 1

/-- Largest field width of `BW.WRITE` and `BR.READ`, `MAX_WIDTH`. -/
@[simp] abbrev Config.maxWidth : Nat := 32

/-- Width of PduTypeDiscriminator, `DC_BITS`. -/
@[simp] abbrev Config.dcBits : Nat := 1

/-- Width of ControlPduType, `CPT_BITS`. -/
@[simp] abbrev Config.cptBits : Nat := 3

/-- Width of the header, `HDR_BITS` (4, not 3: spec/90_conflicts.md C2). -/
@[simp] abbrev Config.hdrBits : Nat := 4

/-- Width of the continuation bit, `E1_BITS`. -/
@[simp] abbrev Config.e1Bits : Nat := 1

/-- Wire cost of one NACK entry, `ENTRY_BITS`. -/
@[simp] abbrev Config.entryBits : Nat := 11

/-- Wire cost with an empty NACK list, `BASE_BITS`. -/
@[simp] abbrev Config.baseBits : Nat := 15

/-- Shortest legal encoded PDU in bytes, `MIN_PDU_BYTES`. -/
@[simp] abbrev Config.minPduBytes : Nat := 2

/-! ### The parameters left open (R6) -/

/-- The two parameters of R6, `none` standing for infinity. They are arguments of the model, not state
of the block: `State` carries them so that a run can be written out for any of their values, and no
command changes them (notes/assumptions/2.md). -/
structure Params where
  /-- `NACK_CAP`: most entries `NACKQ` can hold. -/
  nackCap : Option Nat
  /-- `BUF_CAP`: most bytes each of `TXB`, `RXB`, `PKT` can hold. -/
  bufCap : Option Nat
deriving DecidableEq, Repr

/-- The constraints of R6: `NACK_CAP >= 1`; `BUF_CAP >= ceil((15 + 11*NACK_CAP)/8)`, so that an infinite
`NACK_CAP` needs an infinite `BUF_CAP` (notes/assumptions/12.md); `8*BUF_CAP < 2^32` when finite. -/
def Params.legal (p : Params) : Bool :=
  match p.nackCap, p.bufCap with
  | none, none => true
  | none, some _ => false
  | some n, none => decide (1 ≤ n)
  | some n, some b =>
    decide (1 ≤ n) && decide ((Config.baseBits + Config.entryBits * n + 7) / 8 ≤ b) &&
      decide (8 * b < 2 ^ 32)

/-- Both parameters infinite: "the block behaves exactly as the source's unbounded software" (R6). -/
def Params.unbounded : Params := { nackCap := none, bufCap := none }

/-! ### The free value -/

/-- FREE VALUE (DESIGN CHOICE, notes/assumptions/4.md). What `BR.REMAIN` returns when the number of bits
left does not fit the 32-bit result, which can only be with an infinite `BUF_CAP`: the spec gives that
result no value. It has no body, so nothing can be proved of it; it is applied to what `BR.REMAIN`
reads, `RXB` and `RPOS`. -/
opaque Config.freeRemain : List Byte → Nat → Word

end Sys2Proof
end

