-- ==== Sys2Proof/Machine/State.lean ====
section
/-! DEFINITION. The state of the machine, as plain data, and its value after reset.

`Block` is the spec's record (spec/10_state.md R20): the whole architectural state of the block, eight
items. The views `WPOS` and `TXB` are computed from it (Machine/Ops.lean). `State` puts round it what the
interface `exec : State x CW -> State x ST x R` of spec/00_scope.md R12 passes in and out: the parameters
of R6, the command words the host has issued and the block has not yet taken, and the responses the block
has given (notes/assumptions/1.md and 2.md). -/

namespace Sys2Proof.Machine

/-- The seven failure names of spec/60_exceptions.md R160. -/
inductive Failure where
  | fieldOverflow
  | truncatedInput
  | invalidHeader
  | illegalCommand
  | illegalState
  | capacityExceeded
  | indexOutOfRange
deriving DecidableEq, Repr

/-- The response status `ST` (R160): `OK` or one of the seven failures. `Status.code` (Machine/Flags.lean)
gives its 3-bit number. -/
inductive Status where
  | ok
  | fail (f : Failure)
deriving DecidableEq, Repr

/-- What the response port carries: the status `ST` and the result `R` (spec/00_scope.md R12). -/
structure Response where
  st : Status
  r : Word
deriving DecidableEq, Repr

/-- The whole architectural state of the block (spec/10_state.md R20). -/
structure Block where
  /-- `SNBASE`, the reference point of the ordering comparison (R21). -/
  snbase : Residue
  /-- `WBITS`, every bit the writer has accepted since its last reset, in stream order (R22). -/
  wbits : List Bool
  /-- `WFIN`, the writer's finished flag (R23). -/
  wfin : Bool
  /-- `RXB`, the reader's input bytes (R25). -/
  rxb : List Byte
  /-- `RPOS`, the count of bits the reader has consumed (R26). -/
  rpos : Nat
  /-- `PKT`, the packet buffer, front first (R27). -/
  pkt : List Byte
  /-- `ACK`, the PDU's `ackSn` (R28). -/
  ack : Residue
  /-- `NACKQ`, the PDU's `nackList`, head first (R29). -/
  nackq : List Residue
deriving DecidableEq, Repr

/-- The machine: the block, the parameters it was built with, and its two ports. -/
structure State where
  /-- The parameters `NACK_CAP` and `BUF_CAP` (spec/00_scope.md R6); no command changes them. -/
  params : Params
  /-- The block's eight items (spec/10_state.md R20). -/
  blk : Block
  /-- The request port: the command words issued and not yet taken, the next one first
  (spec/10_state.md R31, spec/70_reset_and_hazards.md R192). -/
  requests : List CommandWord
  /-- The response port: the responses given so far, the oldest first (R192). -/
  responses : List Response
deriving DecidableEq, Repr

/-- The block has no fault: "no traps, no stuck state, no hang" (spec/00_scope.md R14 item 5,
spec/60_exceptions.md R166, R167). A failure is a status in a response, and the machine goes on. The type
is empty, so no step can stop with a fault. -/
inductive Fault where
deriving DecidableEq, Repr

/-- Why a command has no meaning in this model. -/
inductive Refusal where
  /-- Raised by `exec` for a command that has no meaning yet; safe, since nothing is claimed of it. No arm
  of `exec` raises it: every command has its meaning. -/
  | notModelled (mnemonic : String)
deriving DecidableEq, Repr

/-- The block after reset (spec/10_state.md R38, spec/70_reset_and_hazards.md R180). -/
def Block.reset : Block :=
  { snbase := 0, wbits := [], wfin := false, rxb := [], rpos := 0, pkt := [], ack := 0, nackq := [] }

/-- The machine right after power-on: the block reset, nothing issued, nothing answered. The parameters
are those of the source's unbounded software (notes/assumptions/2.md). -/
def State.reset : State :=
  { params := Params.unbounded, blk := Block.reset, requests := [], responses := [] }

end Sys2Proof.Machine
end

