-- ==== Sys2Proof/Machine/Flags.lean ====
section
/-! DEFINITION. The status numbers, the comparator's outcome, and the one flag `WFIN` as software sees
it. The block has no condition codes (spec/10_state.md R32): the comparator's outcome leaves in `R`. -/

namespace Sys2Proof.Machine

/-- The 3-bit code of a status (spec/60_exceptions.md R160). -/
def Status.code : Status → BitVec 3
  | .ok => 0
  | .fail .fieldOverflow => 1
  | .fail .truncatedInput => 2
  | .fail .invalidHeader => 3
  | .fail .illegalCommand => 4
  | .fail .illegalState => 5
  | .fail .capacityExceeded => 6
  | .fail .indexOutOfRange => 7

/-- `sn_cmp(base, a, b)`: which of `a`, `b` lies farther ahead of `base`, going up round the circle
(spec/40_sequence_number.md R84). The subtraction of residues is mod 1024. -/
def snCmp (base a b : Residue) : Ordering :=
  if (a - base).toNat < (b - base).toNat then .lt
  else if (a - base).toNat = (b - base).toNat then .eq
  else .gt

/-- The result of `SN.CMP`: one-hot, bit 0 LT, bit 1 EQ, bit 2 GT (R85). -/
def orderingWord : Ordering → Word
  | .lt => 1
  | .eq => 2
  | .gt => 4

/-- The CSR `STATUS`: `WFIN` in bit 0, the rest 0 (spec/10_state.md R35). -/
def statusWord (wfin : Bool) : Word := if wfin then 1 else 0

end Sys2Proof.Machine
end

