-- ==== Sys2Proof/Syntax.lean ====
section
/-! DEFINITION. The commands of the block, one constructor for each of the 26 rows of
spec/opcode_table.json (spec/30_encoding.md R71). A command holds the operands it uses and no others:
an ignored field is a true don't-care (R72). The selector operands are turned into names here (R73);
`raw`, `delta`, `width`, `value`, `byte` and `index` operands stay 32-bit words, and each command's own
rule checks them (notes/assumptions/7.md). -/

namespace Sys2Proof

/-- A CSR selector (spec/10_state.md R33). -/
inductive Csr where
  /-- CSR 0. -/
  | snbase
  /-- CSR 1. -/
  | status
  /-- CSR 2. -/
  | wpos
  /-- CSR 3. -/
  | rpos
  /-- A number that is no register: 4 and above. -/
  | absent (number : Word)
deriving DecidableEq, Repr

/-- A buffer-space selector (spec/20_memory.md R40). -/
inductive Space where
  /-- Space 0, the writer's output. -/
  | txb
  /-- Space 1, the reader's input. -/
  | rxb
  /-- Space 2, the packet buffer. -/
  | pkt
  /-- A number that is no space: 3 and above. -/
  | absent (number : Word)
deriving DecidableEq, Repr

/-- The 26 commands, in the opcode table's order. -/
inductive Instr where
  | sysReset
  | csrRd (csr : Csr)
  | csrWr (csr : Csr) (value : Word)
  | snCreate (raw : Word)
  | snAdd (a delta : Word)
  | snSub (a delta : Word)
  | snCmp (a b : Word)
  | bwReset
  | bwWrite (width value : Word)
  | bwFinish
  | brReset
  | brRead (width : Word)
  | brRemain
  | pduClear
  | pduSetack (raw : Word)
  | pduPushnack (raw : Word)
  | pduGetack
  | pduPopnack
  | pduSer
  | pduDes
  | hbAttach
  | hbDetach
  | bufClear (space : Space)
  | bufAppend (space : Space) (byte : Word)
  | bufLd (space : Space) (index : Word)
  | bufLen (space : Space)
deriving DecidableEq, Repr

end Sys2Proof
end

