-- ==== Sys2Proof/WellFormed.lean ====
section
/-! DEFINITION. Which terms of `Instr` some command word stands for. The only terms that none stands for
are those whose `absent` selector holds the number of a selector that is there: CSRs 0 to 3
(spec/10_state.md R33), spaces 0 to 2 (spec/20_memory.md R40). Every operand word of every value is
well-formed: a command with an illegal operand is a command, and answers a status (R72, R73). -/

namespace Sys2Proof

/-- An `absent` CSR has a number 4 or above (R33). -/
def Csr.wellFormed : Csr → Bool
  | .snbase => true
  | .status => true
  | .wpos => true
  | .rpos => true
  | .absent n => decide (4 ≤ n.toNat)

/-- An `absent` space has a number 3 or above (R40). -/
def Space.wellFormed : Space → Bool
  | .txb => true
  | .rxb => true
  | .pkt => true
  | .absent n => decide (3 ≤ n.toNat)

/-- Some command word stands for this term. -/
def Instr.wellFormed : Instr → Bool
  | .sysReset => true
  | .csrRd csr => csr.wellFormed
  | .csrWr csr _ => csr.wellFormed
  | .snCreate _ => true
  | .snAdd _ _ => true
  | .snSub _ _ => true
  | .snCmp _ _ => true
  | .bwReset => true
  | .bwWrite _ _ => true
  | .bwFinish => true
  | .brReset => true
  | .brRead _ => true
  | .brRemain => true
  | .pduClear => true
  | .pduSetack _ => true
  | .pduPushnack _ => true
  | .pduGetack => true
  | .pduPopnack => true
  | .pduSer => true
  | .pduDes => true
  | .hbAttach => true
  | .hbDetach => true
  | .bufClear space => space.wellFormed
  | .bufAppend space _ => space.wellFormed
  | .bufLd space _ => space.wellFormed
  | .bufLen space => space.wellFormed

end Sys2Proof
end

