-- ==== Sys2Proof/Decode.lean ====
section
/-! DEFINITION. The command word's decoder, total on every 72-bit word, and the encoder
(spec/30_encoding.md R70 to R76). The request port carries a 72-bit word, not bytes (spec/00_scope.md
R12), so the decoder reads a word; its bit 0 is bit 0 of spec/opcode_table.json's numbering
(notes/assumptions/8.md). -/

namespace Sys2Proof

/-- Why a word is no command. -/
inductive DecodeError where
  /-- One of the 230 values of `OP` that R71's table does not list (R72). -/
  | reservedOpcode (op : Opcode)
deriving DecidableEq, Repr

/-! ### Fields of the word (R70) -/

/-- `OP = CW[71:64]`. -/
def opField (cw : CommandWord) : Opcode := cw.extractLsb' 64 8

/-- `A = CW[63:32]`. -/
def aField (cw : CommandWord) : Word := cw.extractLsb' 32 32

/-- `B = CW[31:0]`. -/
def bField (cw : CommandWord) : Word := cw.extractLsb' 0 32

/-- The selector operand of `CSR.RD` and `CSR.WR` (spec/10_state.md R33, spec/30_encoding.md R73). -/
def csrOf (a : Word) : Csr :=
  match a.toNat with
  | 0 => .snbase
  | 1 => .status
  | 2 => .wpos
  | 3 => .rpos
  | _ => .absent a

/-- The selector operand of the `BUF.*` commands (spec/20_memory.md R40, spec/30_encoding.md R73). -/
def spaceOf (a : Word) : Space :=
  match a.toNat with
  | 0 => .txb
  | 1 => .rxb
  | 2 => .pkt
  | _ => .absent a

/-- The command that `OP`, `A` and `B` select: R71's table, matched on `OP` alone. -/
def decodeFields (op : Opcode) (a b : Word) : Except DecodeError Instr :=
  match op.toNat with
  | 0x01 => .ok .sysReset
  | 0x02 => .ok (.csrRd (csrOf a))
  | 0x03 => .ok (.csrWr (csrOf a) b)
  | 0x10 => .ok (.snCreate b)
  | 0x11 => .ok (.snAdd a b)
  | 0x12 => .ok (.snSub a b)
  | 0x13 => .ok (.snCmp a b)
  | 0x20 => .ok .bwReset
  | 0x21 => .ok (.bwWrite a b)
  | 0x22 => .ok .bwFinish
  | 0x30 => .ok .brReset
  | 0x31 => .ok (.brRead a)
  | 0x32 => .ok .brRemain
  | 0x40 => .ok .pduClear
  | 0x41 => .ok (.pduSetack b)
  | 0x42 => .ok (.pduPushnack b)
  | 0x43 => .ok .pduGetack
  | 0x44 => .ok .pduPopnack
  | 0x45 => .ok .pduSer
  | 0x46 => .ok .pduDes
  | 0x50 => .ok .hbAttach
  | 0x51 => .ok .hbDetach
  | 0x60 => .ok (.bufClear (spaceOf a))
  | 0x61 => .ok (.bufAppend (spaceOf a) b)
  | 0x62 => .ok (.bufLd (spaceOf a) b)
  | 0x63 => .ok (.bufLen (spaceOf a))
  | _ => .error (.reservedOpcode op)

/-- The command a word stands for, or the reserved opcode it holds (R72). -/
def decode (cw : CommandWord) : Except DecodeError Instr :=
  decodeFields (opField cw) (aField cw) (bField cw)

/-! ### The encoder -/

/-- The number of a CSR selector (R33). -/
def csrNumber : Csr → Word
  | .snbase => 0
  | .status => 1
  | .wpos => 2
  | .rpos => 3
  | .absent n => n

/-- The number of a buffer space (R40). -/
def spaceNumber : Space → Word
  | .txb => 0
  | .rxb => 1
  | .pkt => 2
  | .absent n => n

/-- `OP ‖ A ‖ B` (R70). -/
def commandWord (op : Opcode) (a b : Word) : CommandWord := op ++ a ++ b

/-- The opcode of a command: the first column of R71's table. -/
def Instr.opcode : Instr → Opcode
  | .sysReset => 0x01
  | .csrRd _ => 0x02
  | .csrWr _ _ => 0x03
  | .snCreate _ => 0x10
  | .snAdd _ _ => 0x11
  | .snSub _ _ => 0x12
  | .snCmp _ _ => 0x13
  | .bwReset => 0x20
  | .bwWrite _ _ => 0x21
  | .bwFinish => 0x22
  | .brReset => 0x30
  | .brRead _ => 0x31
  | .brRemain => 0x32
  | .pduClear => 0x40
  | .pduSetack _ => 0x41
  | .pduPushnack _ => 0x42
  | .pduGetack => 0x43
  | .pduPopnack => 0x44
  | .pduSer => 0x45
  | .pduDes => 0x46
  | .hbAttach => 0x50
  | .hbDetach => 0x51
  | .bufClear _ => 0x60
  | .bufAppend _ _ => 0x61
  | .bufLd _ _ => 0x62
  | .bufLen _ => 0x63

/-- The operand `A` of a command; an ignored operand assembles to 0 (R74). -/
def Instr.operandA : Instr → Word
  | .sysReset => 0
  | .csrRd csr => csrNumber csr
  | .csrWr csr _ => csrNumber csr
  | .snCreate _ => 0
  | .snAdd a _ => a
  | .snSub a _ => a
  | .snCmp a _ => a
  | .bwReset => 0
  | .bwWrite width _ => width
  | .bwFinish => 0
  | .brReset => 0
  | .brRead width => width
  | .brRemain => 0
  | .pduClear => 0
  | .pduSetack _ => 0
  | .pduPushnack _ => 0
  | .pduGetack => 0
  | .pduPopnack => 0
  | .pduSer => 0
  | .pduDes => 0
  | .hbAttach => 0
  | .hbDetach => 0
  | .bufClear space => spaceNumber space
  | .bufAppend space _ => spaceNumber space
  | .bufLd space _ => spaceNumber space
  | .bufLen space => spaceNumber space

/-- The operand `B` of a command; an ignored operand assembles to 0 (R74). -/
def Instr.operandB : Instr → Word
  | .sysReset => 0
  | .csrRd _ => 0
  | .csrWr _ value => value
  | .snCreate raw => raw
  | .snAdd _ delta => delta
  | .snSub _ delta => delta
  | .snCmp _ b => b
  | .bwReset => 0
  | .bwWrite _ value => value
  | .bwFinish => 0
  | .brReset => 0
  | .brRead _ => 0
  | .brRemain => 0
  | .pduClear => 0
  | .pduSetack raw => raw
  | .pduPushnack raw => raw
  | .pduGetack => 0
  | .pduPopnack => 0
  | .pduSer => 0
  | .pduDes => 0
  | .hbAttach => 0
  | .hbDetach => 0
  | .bufClear _ => 0
  | .bufAppend _ byte => byte
  | .bufLd _ index => index
  | .bufLen _ => 0

/-- The word a command assembles to (R74). -/
def encode (i : Instr) : CommandWord := commandWord i.opcode i.operandA i.operandB

/-! ### The opcode table's numbering -/

/-- The command word whose low `nbits` bits are `w` and whose higher bits are 0. -/
def tableWord (nbits w : Nat) : CommandWord := BitVec.ofNat 72 (w % 2 ^ nbits)

/-- What the decoder reads from an instruction whose bits, numbered as spec/opcode_table.json numbers
them, are `w`. -/
def decodeTableWord (nbits w : Nat) : Option Instr := (decode (tableWord nbits w)).toOption

end Sys2Proof
end

