-- ==== Sys2Proof/Machine/Bits.lean ====
section
/-! DEFINITION. Bit sequences, byte buffers and the functions between them (spec/00_scope.md R8, R9;
bit and byte order: spec/20_memory.md R45, R46). A bit sequence is a `List Bool` in stream order, a byte
buffer a `List Byte` by index. -/

namespace Sys2Proof.Machine

/-- The bytes that `n` bits occupy, `ceil(n / 8)` (R7). -/
def bytesFor (n : Nat) : Nat := (n + 7) / 8

/-- The unsigned value of the `w` bits `f 0, …, f (w-1)`, the first the most significant:
`sum over k of f k * 2^(w-1-k)` (R9). -/
def bitsValue (f : Nat → Bool) : Nat → Nat
  | 0 => 0
  | w + 1 => 2 * bitsValue f w + (f w).toNat

/-- `msb(v, w)`: the `w` low bits of `v`, the most significant first (R8). -/
def msb (v w : Nat) : List Bool := (List.range w).map fun k => v.testBit (w - 1 - k)

/-- `bitat(buf, i)`: bit `7 - (i mod 8)` of byte `i div 8` (R9). R9 defines it for
`i < 8*len(buf)` only; no command reads a bit beyond
(notes/assumptions/9.md). -/
def bitAt (buf : List Byte) (i : Nat) : Bool := (buf.getD (i / 8) 0).getLsbD (7 - i % 8)

/-- `field(buf, p, w)`: the `w` bits from stream index `p`, as an unsigned value (R9). -/
def field (buf : List Byte) (p w : Nat) : Nat := bitsValue (fun k => bitAt buf (p + k)) w

/-- Byte `j` of `pack(bits)`; a missing bit is 0 (R9). -/
def packByte (bits : List Bool) (j : Nat) : Byte :=
  BitVec.ofNat 8 (bitsValue (fun k => bits.getD (8 * j + k) false) 8)

/-- `pack(bits)`: the bits in bytes, the last byte's missing bits 0 (R9). -/
def pack (bits : List Bool) : List Byte := (List.range (bytesFor bits.length)).map (packByte bits)

end Sys2Proof.Machine
end

