-- ==== Sys2Proof/Machine/Ops.lean ====
section
/-! DEFINITION. The shared operations: the two ways a command ends (`return` and `raise`,
spec/00_scope.md R13), the request port, the capacity check, the views `WPOS` and `TXB`, and the ways a
buffer changes (spec/20_memory.md R44). -/

namespace Sys2Proof.Machine

/-! ### How a command ends -/

/-- `return (v)` (R13): the command ends with `ST = OK` and `R = v`, and the block becomes `b`. -/
def respond (s : State) (b : Block) (r : Word) : Host.Outcome State Fault Refusal :=
  .next { s with blk := b, responses := s.responses ++ [{ st := .ok, r := r }] }

/-- `raise <Status>` (R13), the block's whole exception entry (spec/60_exceptions.md R166): the command
ends with that status and `R = 0`, and no register, flag or buffer changes (R163). Nothing is saved, so
there is no return from it: the next command is accepted as after a success (R167). -/
def raise (f : Failure) (s : State) : Host.Outcome State Fault Refusal :=
  .next { s with responses := s.responses ++ [{ st := .fail f, r := 0 }] }

/-- The answer to a word that is no command: `IllegalCommand` (spec/30_encoding.md R72). -/
def rejectWord (e : DecodeError) (s : State) : Host.Outcome State Fault Refusal :=
  match e with
  | .reservedOpcode _ => raise .illegalCommand s

/-! ### The request port -/

/-- Take the next command word off the request port; `none` when the host has issued none. -/
def fetch (s : State) : Option (CommandWord × State) :=
  match s.requests with
  | [] => none
  | cw :: rest => some (cw, { s with requests := rest })

/-- No command has been issued: the block is idle and stays as it is (spec/60_exceptions.md R170,
spec/70_reset_and_hazards.md R192). -/
def idle (s : State) : Host.Outcome State Fault Refusal := .next s

/-! ### Capacities -/

/-- `n` is more than the capacity `cap` allows; never so when it is infinite (spec/00_scope.md R6). -/
def overCap (cap : Option Nat) (n : Nat) : Bool :=
  match cap with
  | none => false
  | some c => decide (c < n)

/-- `n` bits are more than `8*BUF_CAP` (spec/41_bitstream_writer.md R92). -/
def overBitCap (cap : Option Nat) (n : Nat) : Bool :=
  match cap with
  | none => false
  | some c => decide (8 * c < n)

/-! ### Views -/

/-- The view `WPOS = len(WBITS)` (spec/10_state.md R22). -/
def Block.wpos (b : Block) : Nat := b.wbits.length

/-- The view `TXB = pack(WBITS)` (spec/10_state.md R24). -/
def Block.txb (b : Block) : List Byte := pack b.wbits

/-- The reader's bits still to come, `8*len(RXB) - RPOS` (spec/42_bitstream_reader.md R103;
notes/assumptions/11.md). -/
def Block.bitsLeft (b : Block) : Nat := 8 * b.rxb.length - b.rpos

/-! ### How the buffers change (R44) -/

/-- Replace the writer's content by a finished one. -/
def Block.loadWriter (b : Block) (bits : List Bool) : Block := { b with wbits := bits, wfin := true }

/-- Append the `w` low bits of `v` to the writer, most significant first (R92). -/
def Block.appendBits (b : Block) (v w : Nat) : Block := { b with wbits := b.wbits ++ msb v w }

/-- Empty `RXB` and rewind the reader (spec/45_system_and_buffer.md R143). -/
def Block.clearRxb (b : Block) : Block := { b with rxb := [], rpos := 0 }

/-- Empty `PKT` (R143). -/
def Block.clearPkt (b : Block) : Block := { b with pkt := [] }

/-- Add one byte at the back of `RXB` (R144). -/
def Block.appendRxb (b : Block) (x : Byte) : Block := { b with rxb := b.rxb ++ [x] }

/-- Add one byte at the back of `PKT` (R144). -/
def Block.appendPkt (b : Block) (x : Byte) : Block := { b with pkt := b.pkt ++ [x] }

/-- `prependBytes`: put bytes before the packet's content (spec/20_memory.md R43). -/
def Block.prependPkt (b : Block) (h : List Byte) : Block := { b with pkt := h ++ b.pkt }

/-- `removeBytesFromFront`: drop `n` bytes from the packet's front (R43). -/
def Block.dropPkt (b : Block) (n : Nat) : Block := { b with pkt := b.pkt.drop n }

/-- Bind the reader to a buffer, with its cursor at bit `p` (spec/44_header_buffer_adapter.md R132). -/
def Block.bindReader (b : Block) (buf : List Byte) (p : Nat) : Block := { b with rxb := buf, rpos := p }

/-- Store a PDU in the PDU registers (spec/43_status_pdu_codec.md R110). -/
def Block.setPdu (b : Block) (ack : Residue) (nacks : List Residue) : Block :=
  { b with ack := ack, nackq := nacks }

/-! ### The form of memory -/

/-- The three buffers are within `BUF_CAP` (spec/10_state.md R22, R25, R27). A buffer is the dense list of
its bytes, as spec/00_scope.md R9 defines it: an index at or beyond its length does not exist
(spec/20_memory.md R40), and equal buffers are equal lists, so no further condition is needed for the
form to be canonical (notes/assumptions/6.md). -/
def Memory.wf (p : Params) (b : Block) : Bool :=
  !overBitCap p.bufCap b.wpos && !overCap p.bufCap b.rxb.length && !overCap p.bufCap b.pkt.length

end Sys2Proof.Machine
end

