-- ==== Sys2Proof/Machine/Operands.lean ====
section
/-! DEFINITION. The operand kinds of spec/30_encoding.md R73 and the forms of a result. -/

namespace Sys2Proof.Machine

/-! ### Operands -/

/-- `create(raw) = raw mod 1024`, the low 10 bits (spec/40_sequence_number.md R80, spec/30_encoding.md
R73). -/
def create (raw : Word) : Residue := raw.setWidth 10

/-- A field width is legal from 1 to 32 (R73). -/
def widthLegal (width : Word) : Bool :=
  decide (Config.minWidth ≤ width.toNat) && decide (width.toNat ≤ Config.maxWidth)

/-- `value` does not fit `width` bits (spec/41_bitstream_writer.md R92). -/
def fieldOverflows (width value : Word) : Bool := decide (2 ^ width.toNat ≤ value.toNat)

/-- The operand is no byte (spec/45_system_and_buffer.md R144). -/
def byteOverflows (byte : Word) : Bool := decide (256 ≤ byte.toNat)

/-- The bytes of a space that the host may read: no absent space, and `TXB` only once the writer is
finished (spec/20_memory.md R41, spec/45_system_and_buffer.md R145, R146). -/
def readableSpace (b : Block) : Space → Except Failure (List Byte)
  | .txb => if b.wfin then .ok b.txb else .error .illegalState
  | .rxb => .ok b.rxb
  | .pkt => .ok b.pkt
  | .absent _ => .error .illegalCommand

/-! ### Results -/

/-- `zext_32` of a residue. -/
def residueWord (v : Residue) : Word := v.setWidth 32

/-- A count as a 32-bit result, mod 2^32 (spec/45_system_and_buffer.md R141, R146;
notes/assumptions/3.md). -/
def countWord (n : Nat) : Word := BitVec.ofNat 32 n

/-- The result of `BR.REMAIN`: the bits left, and a free value when they do not fit 32 bits
(spec/42_bitstream_reader.md R103; notes/assumptions/4.md). -/
def remainWord (b : Block) : Word :=
  if b.bitsLeft < 2 ^ 32 then countWord b.bitsLeft else Config.freeRemain b.rxb b.rpos

/-- The end-of-list sentinel of `PDU.POPNACK` (spec/43_status_pdu_codec.md R115). -/
def popSentinel : Word := 0xFFFFFFFF

/-- The value `CSR.RD` reads, `none` for a number that is no register (spec/10_state.md R33 to R37). -/
def csrValue (b : Block) : Csr → Option Word
  | .snbase => some (residueWord b.snbase)
  | .status => some (statusWord b.wfin)
  | .wpos => some (countWord b.wpos)
  | .rpos => some (countWord b.rpos)
  | .absent _ => none

end Sys2Proof.Machine
end

