-- ==== Sys2Proof/Machine/Wire.lean ====
section
/-! DEFINITION. The wire format of the STATUS PDU: the functions `ser` and `des`
(spec/30_encoding.md R61 to R67, spec/43_status_pdu_codec.md R116, R118). -/

namespace Sys2Proof.Machine

/-- What `des` gives on success: the acknowledgment, the NACK list and the bytes the PDU occupies. -/
structure Decoded where
  ack : Residue
  nacks : List Residue
  hlen : Nat
deriving DecidableEq, Repr

/-! ### Encode (R116) -/

/-- One NACK entry as Serialize writes it: `E1 = 1`, then the entry's value. -/
def entryBits (nack : Residue) : List Bool := msb 1 Config.e1Bits ++ msb nack.toNat Config.snBits

/-- `ser_bits(ack, nacks)`: D/C = 0, CPT = 0, AckSn, the entries in order, the final `E1 = 0`. -/
def serBits (ack : Residue) (nacks : List Residue) : List Bool :=
  msb 0 Config.dcBits ++ msb 0 Config.cptBits ++ msb ack.toNat Config.snBits ++
    nacks.flatMap entryBits ++ msb 0 Config.e1Bits

/-- `ser(ack, nacks)`. -/
def ser (ack : Residue) (nacks : List Residue) : List Byte := pack (serBits ack nacks)

/-- The bits a PDU with `n` NACK entries uses, `15 + 11*n` (spec/30_encoding.md R62). -/
def pduBits (n : Nat) : Nat := Config.baseBits + Config.entryBits * n

/-- The bytes a PDU with `n` NACK entries occupies (R62). -/
def pduBytes (n : Nat) : Nat := bytesFor (pduBits n)

/-! ### Decode (R118) -/

/-- A 10-bit sequence-number field read off the wire; it is already a residue. -/
def snField (buf : List Byte) (p : Nat) : Residue := BitVec.ofNat 10 (field buf p Config.snBits)

/-- The loop of `des`, at stream index `p` with the entries read so far. `fuel` bounds the passes: each
consumes 11 bits, so a buffer of `fuel` bytes has run out before the fuel has, and what the loop answers
then is what check 3 answers (Laws/Wire.lean, `desChain_unfold`; notes/assumptions/10.md). -/
def desChain (nackCap : Option Nat) (buf : List Byte) :
    Nat → Nat → List Residue → Except Failure (List Residue × Nat)
  | 0, _, _ => .error .truncatedInput
  | fuel + 1, p, nacks =>
    if p + 1 > 8 * buf.length then .error .truncatedInput
    else if bitAt buf p = false then .ok (nacks, p + 1)
    else if p + 1 + 10 > 8 * buf.length then .error .truncatedInput
    else if overCap nackCap (nacks.length + 1) then .error .capacityExceeded
    else desChain nackCap buf fuel (p + 11) (nacks ++ [snField buf (p + 1)])

/-- `des(buf)`: the length check, the header check, AckSn, then the E1 chain. -/
def des (nackCap : Option Nat) (buf : List Byte) : Except Failure Decoded :=
  if buf.length < Config.minPduBytes then .error .truncatedInput
  else if field buf 0 Config.hdrBits ≠ 0 then .error .invalidHeader
  else
    match desChain nackCap buf buf.length 14 [] with
    | .error f => .error f
    | .ok (nacks, p) => .ok { ack := snField buf 4, nacks := nacks, hlen := bytesFor p }

end Sys2Proof.Machine
end

