-- ==== Sys2Proof/Machine/HeaderBuffer.lean ====
section
/-! DEFINITION. The HeaderBuffer adapter: `HB.ATTACH`, `HB.DETACH`
(spec/44_header_buffer_adapter.md). -/

namespace Sys2Proof.Machine

/-- `HB.ATTACH` (R131): the effect of `PDU.SER`, and the header goes before the packet's content
(notes/assumptions/3.md for `R`). -/
def execHbAttach (s : State) : Host.Outcome State Fault Refusal :=
  if overCap s.params.bufCap ((ser s.blk.ack s.blk.nackq).length + s.blk.pkt.length) then
    raise .capacityExceeded s
  else
    respond s
      ((s.blk.loadWriter (serBits s.blk.ack s.blk.nackq)).prependPkt (ser s.blk.ack s.blk.nackq))
      (countWord (ser s.blk.ack s.blk.nackq).length)

/-- `HB.DETACH` (R132): decodes the whole packet, binds the reader to a copy of it, and removes exactly
the header's bytes from its front (notes/assumptions/3.md for `R`). -/
def execHbDetach (s : State) : Host.Outcome State Fault Refusal :=
  match des s.params.nackCap s.blk.pkt with
  | .error f => raise f s
  | .ok d =>
    respond s (((s.blk.bindReader s.blk.pkt (8 * d.hlen)).setPdu d.ack d.nacks).dropPkt d.hlen)
      (countWord d.hlen)

end Sys2Proof.Machine
end

