-- ==== Sys2Proof/Machine/Reader.lean ====
section
/-! DEFINITION. The bit-stream reader: `BR.RESET`, `BR.READ`, `BR.REMAIN`
(spec/42_bitstream_reader.md). -/

namespace Sys2Proof.Machine

/-- `BR.RESET` (R101): the cursor goes back to the start of `RXB`. -/
def execBrReset (s : State) : Host.Outcome State Fault Refusal :=
  respond s { s.blk with rpos := 0 } 0

/-- `BR.READ width` (R102): a read that would pass the end consumes nothing. -/
def execBrRead (width : Word) (s : State) : Host.Outcome State Fault Refusal :=
  if !widthLegal width then raise .illegalCommand s
  else if s.blk.rpos + width.toNat > 8 * s.blk.rxb.length then raise .truncatedInput s
  else
    respond s { s.blk with rpos := s.blk.rpos + width.toNat }
      (BitVec.ofNat 32 (field s.blk.rxb s.blk.rpos width.toNat))

/-- `BR.REMAIN` (R103). -/
def execBrRemain (s : State) : Host.Outcome State Fault Refusal :=
  respond s s.blk (remainWord s.blk)

end Sys2Proof.Machine
end

