-- ==== Sys2Proof/Machine/SequenceNumber.lean ====
section
/-! DEFINITION. The sequence-number unit: `SN.CREATE`, `SN.ADD`, `SN.SUB`, `SN.CMP`
(spec/40_sequence_number.md). None of them changes the block. -/

namespace Sys2Proof.Machine

/-- `SN.CREATE raw` (R81). -/
def execSnCreate (raw : Word) (s : State) : Host.Outcome State Fault Refusal :=
  respond s s.blk (residueWord (create raw))

/-- `SN.ADD a, delta` (R82): the sum over the integers, reduced. -/
def execSnAdd (a delta : Word) (s : State) : Host.Outcome State Fault Refusal :=
  respond s s.blk (residueWord (BitVec.ofNat 10 (a.toNat + delta.toNat)))

/-- `SN.SUB a, delta` (R83): the difference over the integers, reduced by the floored remainder. -/
def execSnSub (a delta : Word) (s : State) : Host.Outcome State Fault Refusal :=
  respond s s.blk (residueWord (BitVec.ofInt 10 ((a.toNat : Int) - (delta.toNat : Int))))

/-- `SN.CMP a, b` (R85): the order relative to `SNBASE`. -/
def execSnCmp (a b : Word) (s : State) : Host.Outcome State Fault Refusal :=
  respond s s.blk (orderingWord (snCmp s.blk.snbase (create a) (create b)))

end Sys2Proof.Machine
end

