-- ==== Sys2Proof/Machine/StatusPdu.lean ====
section
/-! DEFINITION. The STATUS PDU codec: `PDU.CLEAR`, `PDU.SETACK`, `PDU.PUSHNACK`, `PDU.GETACK`,
`PDU.POPNACK`, `PDU.SER`, `PDU.DES` (spec/43_status_pdu_codec.md). -/

namespace Sys2Proof.Machine

/-- `PDU.CLEAR` (R111). -/
def execPduClear (s : State) : Host.Outcome State Fault Refusal :=
  respond s (s.blk.setPdu 0 []) 0

/-- `PDU.SETACK raw` (R112). -/
def execPduSetack (raw : Word) (s : State) : Host.Outcome State Fault Refusal :=
  respond s (s.blk.setPdu (create raw) s.blk.nackq) 0

/-- `PDU.PUSHNACK raw` (R113): the entry goes to the tail, unless the queue is full. -/
def execPduPushnack (raw : Word) (s : State) : Host.Outcome State Fault Refusal :=
  if overCap s.params.nackCap (s.blk.nackq.length + 1) then raise .capacityExceeded s
  else respond s (s.blk.setPdu s.blk.ack (s.blk.nackq ++ [create raw])) 0

/-- `PDU.GETACK` (R114). -/
def execPduGetack (s : State) : Host.Outcome State Fault Refusal :=
  respond s s.blk (residueWord s.blk.ack)

/-- `PDU.POPNACK` (R115): the head of the queue, or the sentinel when it is empty, which is no failure. -/
def execPduPopnack (s : State) : Host.Outcome State Fault Refusal :=
  match s.blk.nackq with
  | [] => respond s s.blk popSentinel
  | v :: rest => respond s (s.blk.setPdu s.blk.ack rest) (residueWord v)

/-- `PDU.SER` (R117): whatever the writer held is discarded (notes/assumptions/3.md for `R`). -/
def execPduSer (s : State) : Host.Outcome State Fault Refusal :=
  respond s (s.blk.loadWriter (serBits s.blk.ack s.blk.nackq)) (countWord (pduBytes s.blk.nackq.length))

/-- `PDU.DES` (R119): decodes from index 0 of `RXB`, whatever `RPOS` was (notes/assumptions/3.md for `R`). -/
def execPduDes (s : State) : Host.Outcome State Fault Refusal :=
  match des s.params.nackCap s.blk.rxb with
  | .error f => raise f s
  | .ok d =>
    respond s ((s.blk.setPdu d.ack d.nacks).bindReader s.blk.rxb (8 * d.hlen)) (countWord d.hlen)

end Sys2Proof.Machine
end

