-- ==== Sys2Proof/Machine/System.lean ====
section
/-! DEFINITION. System, register-access and buffer-access commands: `SYS.RESET`, `CSR.RD`, `CSR.WR`,
`BUF.CLEAR`, `BUF.APPEND`, `BUF.LD`, `BUF.LEN` (spec/45_system_and_buffer.md). -/

namespace Sys2Proof.Machine

/-- `SYS.RESET` (R140): every item of the block takes its reset value. -/
def execSysReset (s : State) : Host.Outcome State Fault Refusal :=
  respond s Block.reset 0

/-- `CSR.RD csr` (R141). -/
def execCsrRd (csr : Csr) (s : State) : Host.Outcome State Fault Refusal :=
  match csrValue s.blk csr with
  | some v => respond s s.blk v
  | none => raise .illegalCommand s

/-- `CSR.WR csr, value` (R142): only `SNBASE` is writable, and the value is reduced. -/
def execCsrWr (csr : Csr) (value : Word) (s : State) : Host.Outcome State Fault Refusal :=
  match csr with
  | .snbase => respond s { s.blk with snbase := create value } 0
  | .status => raise .illegalCommand s
  | .wpos => raise .illegalCommand s
  | .rpos => raise .illegalCommand s
  | .absent _ => raise .illegalCommand s

/-- `BUF.CLEAR space` (R143): `TXB` is the writer's. -/
def execBufClear (space : Space) (s : State) : Host.Outcome State Fault Refusal :=
  match space with
  | .txb => raise .illegalCommand s
  | .rxb => respond s s.blk.clearRxb 0
  | .pkt => respond s s.blk.clearPkt 0
  | .absent _ => raise .illegalCommand s

/-- The checks and the append of `BUF.APPEND` on a space that the host may write: its length and its
block with the byte added (R144). -/
def appendByte (byte : Word) (len : Nat) (appended : Block) (s : State) :
    Host.Outcome State Fault Refusal :=
  if byteOverflows byte then raise .fieldOverflow s
  else if overCap s.params.bufCap (len + 1) then raise .capacityExceeded s
  else respond s appended 0

/-- `BUF.APPEND space, byte` (R144). -/
def execBufAppend (space : Space) (byte : Word) (s : State) : Host.Outcome State Fault Refusal :=
  match space with
  | .txb => raise .illegalCommand s
  | .rxb => appendByte byte s.blk.rxb.length (s.blk.appendRxb (byte.setWidth 8)) s
  | .pkt => appendByte byte s.blk.pkt.length (s.blk.appendPkt (byte.setWidth 8)) s
  | .absent _ => raise .illegalCommand s

/-- `BUF.LD space, index` (R145). -/
def execBufLd (space : Space) (index : Word) (s : State) : Host.Outcome State Fault Refusal :=
  match readableSpace s.blk space with
  | .error f => raise f s
  | .ok buf =>
    match buf[index.toNat]? with
    | none => raise .indexOutOfRange s
    | some x => respond s s.blk (x.setWidth 32)

/-- `BUF.LEN space` (R146). -/
def execBufLen (space : Space) (s : State) : Host.Outcome State Fault Refusal :=
  match readableSpace s.blk space with
  | .error f => raise f s
  | .ok buf => respond s s.blk (countWord buf.length)

end Sys2Proof.Machine
end

