-- ==== Sys2Proof/Machine/Writer.lean ====
section
/-! DEFINITION. The bit-stream writer: `BW.RESET`, `BW.WRITE`, `BW.FINISH`
(spec/41_bitstream_writer.md). -/

namespace Sys2Proof.Machine

/-- `BW.RESET` (R91): a fresh writer. -/
def execBwReset (s : State) : Host.Outcome State Fault Refusal :=
  respond s { s.blk with wbits := [], wfin := false } 0

/-- `BW.WRITE width, value` (R92): the checks in the rule's order, then the field is appended. -/
def execBwWrite (width value : Word) (s : State) : Host.Outcome State Fault Refusal :=
  if !widthLegal width then raise .illegalCommand s
  else if s.blk.wfin then raise .illegalState s
  else if fieldOverflows width value then raise .fieldOverflow s
  else if overBitCap s.params.bufCap (s.blk.wpos + width.toNat) then raise .capacityExceeded s
  else respond s (s.blk.appendBits value.toNat width.toNat) 0

/-- `BW.FINISH` (R93): the padding is not stored, and `R` is the byte length of `TXB`
(notes/assumptions/3.md). -/
def execBwFinish (s : State) : Host.Outcome State Fault Refusal :=
  if s.blk.wfin then raise .illegalState s
  else respond s { s.blk with wfin := true } (countWord (bytesFor s.blk.wpos))

end Sys2Proof.Machine
end

