-- ==== Sys2Proof/Machine/Dispatch.lean ====
section
/-! DEFINITION. One arm for each command, in the opcode table's order. -/

namespace Sys2Proof.Machine

def exec (i : Instr) (s : State) : Host.Outcome State Fault Refusal :=
  match i with
  | .sysReset => Sys2Proof.Machine.execSysReset s
  | .csrRd csr => Sys2Proof.Machine.execCsrRd csr s
  | .csrWr csr value => Sys2Proof.Machine.execCsrWr csr value s
  | .snCreate raw => Sys2Proof.Machine.execSnCreate raw s
  | .snAdd a delta => Sys2Proof.Machine.execSnAdd a delta s
  | .snSub a delta => Sys2Proof.Machine.execSnSub a delta s
  | .snCmp a b => Sys2Proof.Machine.execSnCmp a b s
  | .bwReset => Sys2Proof.Machine.execBwReset s
  | .bwWrite width value => Sys2Proof.Machine.execBwWrite width value s
  | .bwFinish => Sys2Proof.Machine.execBwFinish s
  | .brReset => Sys2Proof.Machine.execBrReset s
  | .brRead width => Sys2Proof.Machine.execBrRead width s
  | .brRemain => Sys2Proof.Machine.execBrRemain s
  | .pduClear => Sys2Proof.Machine.execPduClear s
  | .pduSetack raw => Sys2Proof.Machine.execPduSetack raw s
  | .pduPushnack raw => Sys2Proof.Machine.execPduPushnack raw s
  | .pduGetack => Sys2Proof.Machine.execPduGetack s
  | .pduPopnack => Sys2Proof.Machine.execPduPopnack s
  | .pduSer => Sys2Proof.Machine.execPduSer s
  | .pduDes => Sys2Proof.Machine.execPduDes s
  | .hbAttach => Sys2Proof.Machine.execHbAttach s
  | .hbDetach => Sys2Proof.Machine.execHbDetach s
  | .bufClear space => Sys2Proof.Machine.execBufClear space s
  | .bufAppend space byte => Sys2Proof.Machine.execBufAppend space byte s
  | .bufLd space index => Sys2Proof.Machine.execBufLd space index s
  | .bufLen space => Sys2Proof.Machine.execBufLen space s

end Sys2Proof.Machine
end

