-- ==== Sys2Proof/Machine/Step.lean ====
section
/-! DEFINITION. One step: the block takes the next command word off its request port and answers it
(spec/00_scope.md R11, R12). A word with a reserved opcode is answered too (spec/30_encoding.md R72);
with nothing issued the block stays as it is. -/

namespace Sys2Proof.Machine

/-- One step of the machine. -/
def step (s : State) : Host.Outcome State Fault Refusal :=
  match fetch s with
  | none => idle s
  | some (cw, s') =>
    match decode cw with
    | .ok i => exec i s'
    | .error e => rejectWord e s'

/-- The state in which the host has issued one command word before those already waiting: the word whose
bits are `w`, as spec/opcode_table.json numbers them (notes/assumptions/5.md). -/
def State.withFetchWord (s : State) (nbits w : Nat) : State :=
  { s with requests := tableWord nbits w :: s.requests }

end Sys2Proof.Machine
end

