-- ==== Sys2Proof/Safety.lean ====
section
/-! DEFINITION. What claims rest on: the invariants the spec gives the block's state
(spec/10_state.md R20, R22, R25 to R27, R29), in the terms of the parameters (spec/00_scope.md R6). -/

namespace Sys2Proof.Safety

open Sys2Proof.Machine

/-- The parameters meet R6's constraints and every item of the block is within its range: the buffers
within `BUF_CAP`, the queue within `NACK_CAP`, and `RPOS <= 8*len(RXB)`. (`SNBASE`, `ACK` and the queue's
entries are residues by their type.) -/
abbrev Inv (s : State) : Prop :=
  s.params.legal = true ∧ Memory.wf s.params s.blk = true ∧
    overCap s.params.nackCap s.blk.nackq.length = false ∧ s.blk.rpos ≤ 8 * s.blk.rxb.length

/-- The state after one command has answered status `st` and result `r` and left the block as `b`: the
parameters and the request port are those of `s`, and the response port holds one response more. -/
abbrev answered (s : State) (st : Status) (r : Word) (b : Block) : State :=
  { s with blk := b, responses := s.responses ++ [{ st := st, r := r }] }

/-- The 26 opcodes of spec/30_encoding.md R71's table. -/
def definedOpcodes : List Opcode :=
  [0x01, 0x02, 0x03, 0x10, 0x11, 0x12, 0x13, 0x20, 0x21, 0x22, 0x30, 0x31, 0x32, 0x40, 0x41, 0x42, 0x43,
    0x44, 0x45, 0x46, 0x50, 0x51, 0x60, 0x61, 0x62, 0x63]

end Sys2Proof.Safety
end

