-- ==== Sys2Proof/Certificates/Slice0/Obligations.lean ====
section
/-! DEFINITION. The statements for the provers. Each docstring names the rule of spec/ it formalises.
Where a rule's text carries the spec's own mark `[decision: …]` or `[derived: …]` on a clause stated here,
the docstring says so and the statement's basis is 'derived'.

`answered s st r b` (Safety.lean) is the state `s` with one response `(st, r)` more on the response port and
the block `b`; every other field is that of `s`. A conclusion `exec i s = .next (answered s .ok r b)` so
says the result, the whole next block, and the frame. -/

open Sys2Proof
open Sys2Proof.Machine
open Sys2Proof.Safety

/-! ### Encoding and decoding -/

/-- Decoding the word of a well-formed command gives the command back, with every operand at every value
(spec/30_encoding.md R70, R71, R73, R74; the numbers are the spec's decisions D1, D2). -/
def Obligations.DecodeEncodeRoundTrip : Prop :=
  ∀ i : Instr, i.wellFormed = true → decode (encode i) = .ok i

/-- R71's table, row by row, for every value of `A` and `B`, the selectors with their numbers and with the
numbers that select nothing (R33, R40, R71, R73; the spec's decisions D2, D19, D23). -/
def Obligations.OpcodeMapDecodes : Prop :=
  ∀ a b : Word,
    decode (commandWord 0x01 a b) = .ok .sysReset ∧
    decode (commandWord 0x02 0 b) = .ok (.csrRd .snbase) ∧
    decode (commandWord 0x02 1 b) = .ok (.csrRd .status) ∧
    decode (commandWord 0x02 2 b) = .ok (.csrRd .wpos) ∧
    decode (commandWord 0x02 3 b) = .ok (.csrRd .rpos) ∧
    (4 ≤ a.toNat → decode (commandWord 0x02 a b) = .ok (.csrRd (.absent a))) ∧
    decode (commandWord 0x03 0 b) = .ok (.csrWr .snbase b) ∧
    decode (commandWord 0x03 1 b) = .ok (.csrWr .status b) ∧
    decode (commandWord 0x03 2 b) = .ok (.csrWr .wpos b) ∧
    decode (commandWord 0x03 3 b) = .ok (.csrWr .rpos b) ∧
    (4 ≤ a.toNat → decode (commandWord 0x03 a b) = .ok (.csrWr (.absent a) b)) ∧
    decode (commandWord 0x10 a b) = .ok (.snCreate b) ∧
    decode (commandWord 0x11 a b) = .ok (.snAdd a b) ∧
    decode (commandWord 0x12 a b) = .ok (.snSub a b) ∧
    decode (commandWord 0x13 a b) = .ok (.snCmp a b) ∧
    decode (commandWord 0x20 a b) = .ok .bwReset ∧
    decode (commandWord 0x21 a b) = .ok (.bwWrite a b) ∧
    decode (commandWord 0x22 a b) = .ok .bwFinish ∧
    decode (commandWord 0x30 a b) = .ok .brReset ∧
    decode (commandWord 0x31 a b) = .ok (.brRead a) ∧
    decode (commandWord 0x32 a b) = .ok .brRemain ∧
    decode (commandWord 0x40 a b) = .ok .pduClear ∧
    decode (commandWord 0x41 a b) = .ok (.pduSetack b) ∧
    decode (commandWord 0x42 a b) = .ok (.pduPushnack b) ∧
    decode (commandWord 0x43 a b) = .ok .pduGetack ∧
    decode (commandWord 0x44 a b) = .ok .pduPopnack ∧
    decode (commandWord 0x45 a b) = .ok .pduSer ∧
    decode (commandWord 0x46 a b) = .ok .pduDes ∧
    decode (commandWord 0x50 a b) = .ok .hbAttach ∧
    decode (commandWord 0x51 a b) = .ok .hbDetach ∧
    decode (commandWord 0x60 0 b) = .ok (.bufClear .txb) ∧
    decode (commandWord 0x60 1 b) = .ok (.bufClear .rxb) ∧
    decode (commandWord 0x60 2 b) = .ok (.bufClear .pkt) ∧
    (3 ≤ a.toNat → decode (commandWord 0x60 a b) = .ok (.bufClear (.absent a))) ∧
    decode (commandWord 0x61 0 b) = .ok (.bufAppend .txb b) ∧
    decode (commandWord 0x61 1 b) = .ok (.bufAppend .rxb b) ∧
    decode (commandWord 0x61 2 b) = .ok (.bufAppend .pkt b) ∧
    (3 ≤ a.toNat → decode (commandWord 0x61 a b) = .ok (.bufAppend (.absent a) b)) ∧
    decode (commandWord 0x62 0 b) = .ok (.bufLd .txb b) ∧
    decode (commandWord 0x62 1 b) = .ok (.bufLd .rxb b) ∧
    decode (commandWord 0x62 2 b) = .ok (.bufLd .pkt b) ∧
    (3 ≤ a.toNat → decode (commandWord 0x62 a b) = .ok (.bufLd (.absent a) b)) ∧
    decode (commandWord 0x63 0 b) = .ok (.bufLen .txb) ∧
    decode (commandWord 0x63 1 b) = .ok (.bufLen .rxb) ∧
    decode (commandWord 0x63 2 b) = .ok (.bufLen .pkt) ∧
    (3 ≤ a.toNat → decode (commandWord 0x63 a b) = .ok (.bufLen (.absent a)))

/-- "Fields a command ignores are true don't-cares" (R72, the spec's decisions D2, D3): two words that
differ only in an ignored field decode alike, and so do all words with the fields of a decoded command;
what is decoded is well-formed and has the word's opcode. -/
def Obligations.IgnoredFieldsAreDontCare : Prop :=
  (∀ (op : Opcode) (a a' b : Word),
    op ∈ [0x01, 0x10, 0x20, 0x22, 0x30, 0x32, 0x40, 0x41, 0x42, 0x43, 0x44, 0x45, 0x46, 0x50, 0x51] →
      decode (commandWord op a b) = decode (commandWord op a' b)) ∧
  (∀ (op : Opcode) (a b b' : Word),
    op ∈ [0x01, 0x02, 0x20, 0x22, 0x30, 0x31, 0x32, 0x40, 0x43, 0x44, 0x45, 0x46, 0x50, 0x51, 0x60, 0x63] →
      decode (commandWord op a b) = decode (commandWord op a b')) ∧
  (∀ (cw : CommandWord) (i : Instr), decode cw = .ok i →
    i.wellFormed = true ∧ i.opcode = opField cw ∧ decode (encode i) = .ok i)

/-- Every opcode not in R71's table is reserved, 230 values: the word decodes to that rejection, and the
block answers `IllegalCommand` with `R = 0` and changes nothing else. Every other word decodes to a
command (R72, the spec's decisions D2, D3). -/
def Obligations.ReservedOpcodesAnswerIllegalCommand : Prop :=
  (∀ cw : CommandWord, opField cw ∈ definedOpcodes → ∃ i, decode cw = .ok i) ∧
  (∀ (s : State) (cw : CommandWord) (rest : List CommandWord),
    s.requests = cw :: rest → opField cw ∉ definedOpcodes →
      decode cw = .error (.reservedOpcode (opField cw)) ∧
      step s = .next (answered { s with requests := rest } (.fail .illegalCommand) 0 s.blk)) ∧
  ((List.range 256).filter fun n => decide (BitVec.ofNat 8 n ∉ definedOpcodes)).length = 230

/-- The worked encodings of R76, digit for digit, decode to the commands they stand for. -/
def Obligations.WorkedEncodingsDecode : Prop :=
  ∀ p ∈ ([(0x010000000000000000, .sysReset), (0x020000000000000000, .csrRd .snbase),
      (0x020000000300000000, .csrRd .rpos), (0x0300000000000003E8, .csrWr .snbase 1000),
      (0x100000000000000406, .snCreate 1030), (0x11000003FC0000000A, .snAdd 1020 10),
      (0x120000000000000001, .snSub 0 1), (0x13000003FC00000006, .snCmp 1020 6),
      (0x200000000000000000, .bwReset), (0x210000000A00000008, .bwWrite 10 8),
      (0x220000000000000000, .bwFinish), (0x300000000000000000, .brReset),
      (0x310000000A00000000, .brRead 10), (0x320000000000000000, .brRemain)] ++
     [(0x400000000000000000, .pduClear), (0x410000000000000005, .pduSetack 5),
      (0x4200000000000003FF, .pduPushnack 1023), (0x430000000000000000, .pduGetack),
      (0x440000000000000000, .pduPopnack), (0x450000000000000000, .pduSer),
      (0x460000000000000000, .pduDes), (0x500000000000000000, .hbAttach),
      (0x510000000000000000, .hbDetach), (0x600000000100000000, .bufClear .rxb),
      (0x6100000002000000AB, .bufAppend .pkt 0xAB), (0x620000000000000001, .bufLd .txb 1),
      (0x630000000200000000, .bufLen .pkt)] : List (CommandWord × Instr)),
    decode p.1 = .ok p.2

/-! ### The step -/

/-- A step takes the next word off the request port and runs the command it decodes to, on the state
without that word; with nothing issued the block stays as it is (R11, R12, R31; the idle step is the
model's reading of "idle between commands", R170: notes/assumptions/1.md). -/
def Obligations.StepRunsTheNextCommand : Prop :=
  (∀ (s : State) (cw : CommandWord) (rest : List CommandWord) (i : Instr),
    s.requests = cw :: rest → decode cw = .ok i → step s = exec i { s with requests := rest }) ∧
  (∀ s : State, s.requests = [] → step s = .next s)

/-- A word issued by the host is the one that the next step runs, on the state it was issued in. How a word
is issued (`withFetchWord`, in front of the words waiting) and how the table's bits make a command word
(`decodeTableWord`) are the model's choice: notes/assumptions/5.md and 8.md. -/
def Obligations.IssuedWordRunsAtOnce : Prop :=
  ∀ (s : State) (nbits w : Nat) (i : Instr),
    decodeTableWord nbits w = some i → step (s.withFetchWord nbits w) = exec i s

/-- Every command, in every state, gets a next state with exactly one response more; it never stops the
machine, and it changes neither the parameters nor the words still waiting (R11, R12, R167, R183). -/
def Obligations.EveryCommandAnswersOnce : Prop :=
  ∀ (i : Instr) (s : State), ∃ (st : Status) (r : Word) (b : Block), exec i s = .next (answered s st r b)

/-- A command whose status is not `OK` returns `R = 0` and leaves every register, flag and buffer as it
was (R163, the spec's decision D4). -/
def Obligations.FailedCommandChangesNoState : Prop :=
  ∀ (i : Instr) (s : State) (f : Failure) (r : Word) (b : Block),
    exec i s = .next (answered s (.fail f) r b) → r = 0 ∧ b = s.blk

/-- Which command can return which failure, and on what ground: the matrix of R172 (which the spec marks
as derived) with the causes of R161. -/
def Obligations.FailuresHaveTheirCauses : Prop :=
  ∀ (i : Instr) (s : State) (f : Failure) (r : Word) (b : Block),
    exec i s = .next (answered s (.fail f) r b) →
    match f with
    | .fieldOverflow =>
      (∃ w v : Word, i = .bwWrite w v ∧ 2 ^ w.toNat ≤ v.toNat) ∨
        (∃ (sp : Space) (x : Word), i = .bufAppend sp x ∧ 256 ≤ x.toNat)
    | .truncatedInput =>
      (∃ w : Word, i = .brRead w ∧ 8 * s.blk.rxb.length < s.blk.rpos + w.toNat) ∨
        (i = .pduDes ∧ des s.params.nackCap s.blk.rxb = .error .truncatedInput) ∨
        (i = .hbDetach ∧ des s.params.nackCap s.blk.pkt = .error .truncatedInput)
    | .invalidHeader =>
      (i = .pduDes ∧ field s.blk.rxb 0 4 ≠ 0) ∨ (i = .hbDetach ∧ field s.blk.pkt 0 4 ≠ 0)
    | .illegalCommand =>
      (∃ w v : Word, i = .bwWrite w v ∧ (w.toNat < 1 ∨ 32 < w.toNat)) ∨
        (∃ w : Word, i = .brRead w ∧ (w.toNat < 1 ∨ 32 < w.toNat)) ∨
        (∃ n : Word, i = .csrRd (.absent n)) ∨
        (∃ (c : Csr) (v : Word), i = .csrWr c v ∧ c ≠ .snbase) ∨
        (∃ sp : Space, i = .bufClear sp ∧ sp ≠ .rxb ∧ sp ≠ .pkt) ∨
        (∃ (sp : Space) (x : Word), i = .bufAppend sp x ∧ sp ≠ .rxb ∧ sp ≠ .pkt) ∨
        (∃ n x : Word, i = .bufLd (.absent n) x) ∨ (∃ n : Word, i = .bufLen (.absent n))
    | .illegalState =>
      (s.blk.wfin = true ∧ (i = .bwFinish ∨ ∃ w v : Word, i = .bwWrite w v)) ∨
        (s.blk.wfin = false ∧ (i = .bufLen .txb ∨ ∃ x : Word, i = .bufLd .txb x))
    | .capacityExceeded =>
      (s.params.bufCap ≠ none ∧
        (i = .hbAttach ∨ (∃ w v : Word, i = .bwWrite w v) ∨ (∃ (sp : Space) (x : Word), i = .bufAppend sp x))) ∨
        (s.params.nackCap ≠ none ∧ (i = .pduDes ∨ i = .hbDetach ∨ ∃ raw : Word, i = .pduPushnack raw))
    | .indexOutOfRange => ∃ (sp : Space) (x : Word), i = .bufLd sp x

/-! ### Reset, the invariant, and whole runs -/

/-- Every step keeps the parameters legal (R6) and every item of the block within the range R20 gives it:
the buffers within `BUF_CAP`, the queue within `NACK_CAP`, `RPOS <= 8*len(RXB)`. -/
def Obligations.StepKeepsItemsInRange : Prop :=
  ∀ s t : State, Inv s → step s = .next t → Inv t

/-- The machine right after reset has every item in its range; so has every machine with the block reset
and legal parameters. -/
def Obligations.ResetItemsInRange : Prop :=
  Inv State.reset ∧
    ∀ s : State, s.params.legal = true → Inv { s with blk := Block.reset }

/-- After power-on and after `SYS.RESET`, from any state, the eight items hold R38's values
(R38, R140, R180; the values are the spec's decision D24; that nothing is issued, nothing answered and the
capacities infinite at power-on is the model's, notes/assumptions/1.md and 2.md). -/
def Obligations.ResetLeavesTheResetValues : Prop :=
  State.reset =
    { params := { nackCap := none, bufCap := none }
      blk := { snbase := 0, wbits := [], wfin := false, rxb := [], rpos := 0, pkt := [], ack := 0, nackq := [] }
      requests := []
      responses := [] } ∧
  ∀ s : State, exec .sysReset s =
    .next (answered s .ok 0
      { snbase := 0, wbits := [], wfin := false, rxb := [], rpos := 0, pkt := [], ack := 0, nackq := [] })

/-- A run of a finite list of command words ends when the last has been answered: it takes one step a
word, never stops before, adds one response a word and keeps the earlier ones (R192, the spec's decision
D6). -/
def Obligations.FiniteRunAnswersEveryWord : Prop :=
  ∀ s : State, ∃ (t : State) (new : List Response),
    Sys2Proof.core.run s.requests.length s = .next t ∧ t.requests = [] ∧ t.params = s.params ∧
      t.responses = s.responses ++ new ∧ new.length = s.requests.length

/-! ### Who reads and who writes what -/

/-- `SNBASE` is written only by `CSR.WR` and reset and read only by `SN.CMP` and `CSR.RD`; no other command
reads or writes it (R21, the spec's decision D7): with another value in it every other command does the
same and leaves that value. The two that read it do not write it. -/
def Obligations.SnbaseTouchedOnlyByItsCommands : Prop :=
  (∀ (i : Instr) (s : State) (v : Residue) (st : Status) (r : Word) (b : Block),
    (∀ c, i ≠ .csrRd c) → (∀ c x, i ≠ .csrWr c x) → (∀ x y, i ≠ .snCmp x y) → i ≠ .sysReset →
    exec i s = .next (answered s st r b) →
      exec i { s with blk := { s.blk with snbase := v } } =
        .next (answered s st r { b with snbase := v })) ∧
  (∀ (c : Csr) (x y : Word) (s : State) (st : Status) (r : Word) (b : Block),
    exec (.csrRd c) s = .next (answered s st r b) ∨ exec (.snCmp x y) s = .next (answered s st r b) →
      b = s.blk)

/-- How the buffers change (R44): "No command overwrites a byte in place." Each of the three changes only
in the ways the rule lists, by the commands it lists; a `BW.WRITE` changes no bit already written (the
rule marks that last clause as derived). -/
def Obligations.BuffersChangeOnlyInTheirWays : Prop :=
  ∀ (i : Instr) (s : State) (st : Status) (r : Word) (b : Block),
    exec i s = .next (answered s st r b) →
    (b.wbits = s.blk.wbits ∨ (b.wbits = [] ∧ (i = .bwReset ∨ i = .sysReset)) ∨
      (∃ w v : Word, i = .bwWrite w v ∧ ∃ bits, b.wbits = s.blk.wbits ++ bits) ∨
      (b.wbits = serBits s.blk.ack s.blk.nackq ∧ (i = .pduSer ∨ i = .hbAttach))) ∧
    (b.rxb = s.blk.rxb ∨ (∃ x y, i = .bufAppend .rxb x ∧ b.rxb = s.blk.rxb ++ [y]) ∨
      (b.rxb = [] ∧ (i = .bufClear .rxb ∨ i = .sysReset)) ∨ (b.rxb = s.blk.pkt ∧ i = .hbDetach)) ∧
    (b.pkt = s.blk.pkt ∨ (∃ x y, i = .bufAppend .pkt x ∧ b.pkt = s.blk.pkt ++ [y]) ∨
      (b.pkt = [] ∧ (i = .bufClear .pkt ∨ i = .sysReset)) ∨
      (i = .hbAttach ∧ ∃ h, b.pkt = h ++ s.blk.pkt) ∨ (i = .hbDetach ∧ ∃ n, b.pkt = s.blk.pkt.drop n)) ∧
    ((∃ w v : Word, i = .bwWrite w v) →
      ∀ k < s.blk.wbits.length, bitAt (pack b.wbits) k = bitAt (pack s.blk.wbits) k)

/-- The reader's cursor (R26): the bits consumed since the reader was last reset. The next bit `BR.READ`
returns is the bit at it; it is advanced by a successful `BR.READ`, set to 0 by `BR.RESET`, by `BUF.CLEAR`
on space 1 and by reset, set to `8*hlen` by a successful `PDU.DES` or `HB.DETACH`, unchanged by every
other command, `BUF.APPEND` on space 1 among them; it stays within `8*len(RXB)`; it is visible as CSR 3. -/
def Obligations.ReaderCursorMoves : Prop :=
  (∀ (i : Instr) (s : State) (st : Status) (r : Word) (b : Block),
    exec i s = .next (answered s st r b) →
    (s.blk.rpos ≤ 8 * s.blk.rxb.length → b.rpos ≤ 8 * b.rxb.length) ∧
    (b.rpos = s.blk.rpos ∨
      (∃ w : Word, i = .brRead w ∧ st = .ok ∧ b.rpos = s.blk.rpos + w.toNat) ∨
      (b.rpos = 0 ∧ (i = .brReset ∨ i = .bufClear .rxb ∨ i = .sysReset)) ∨
      (∃ d, i = .pduDes ∧ des s.params.nackCap s.blk.rxb = .ok d ∧ b.rpos = 8 * d.hlen) ∨
      (∃ d, i = .hbDetach ∧ des s.params.nackCap s.blk.pkt = .ok d ∧ b.rpos = 8 * d.hlen))) ∧
  (∀ (s : State) (w : Word), 1 ≤ w.toNat → w.toNat ≤ 32 → s.blk.rpos + w.toNat ≤ 8 * s.blk.rxb.length →
    ∃ r : Word, exec (.brRead w) s =
      .next (answered s .ok r { s.blk with rpos := s.blk.rpos + w.toNat }) ∧
      r.getLsbD (w.toNat - 1) = bitAt s.blk.rxb s.blk.rpos) ∧
  (∀ s : State, exec .brReset s = .next (answered s .ok 0 { s.blk with rpos := 0 }) ∧
    exec (.bufClear .rxb) s = .next (answered s .ok 0 { s.blk with rxb := [], rpos := 0 }) ∧
    (∃ b, exec .sysReset s = .next (answered s .ok 0 b) ∧ b.rpos = 0)) ∧
  (∀ (s : State) (d : Decoded), des s.params.nackCap s.blk.rxb = .ok d →
    ∃ r b, exec .pduDes s = .next (answered s .ok r b) ∧ b.rpos = 8 * d.hlen) ∧
  (∀ (s : State) (d : Decoded), des s.params.nackCap s.blk.pkt = .ok d →
    ∃ r b, exec .hbDetach s = .next (answered s .ok r b) ∧ b.rpos = 8 * d.hlen) ∧
  (∀ s : State, exec (.csrRd .rpos) s = .next (answered s .ok (BitVec.ofNat 32 s.blk.rpos) s.blk))

/-- `WFIN`, `ACK` and `NACKQ` are written only by the commands that R23, R28 and R29 name (the spec marks
the flag and the queue as its decisions D10, D13); no other command changes them. -/
def Obligations.FlagAndPduRegistersWrittenOnlyByTheirCommands : Prop :=
  ∀ (i : Instr) (s : State) (st : Status) (r : Word) (b : Block),
    exec i s = .next (answered s st r b) →
    (b.wfin = s.blk.wfin ∨ (b.wfin = false ∧ (i = .bwReset ∨ i = .sysReset)) ∨
      (b.wfin = true ∧ (i = .bwFinish ∨ i = .pduSer ∨ i = .hbAttach))) ∧
    (b.ack = s.blk.ack ∨ (∃ raw, i = .pduSetack raw) ∨
      i = .pduClear ∨ i = .pduDes ∨ i = .hbDetach ∨ i = .sysReset) ∧
    (b.nackq = s.blk.nackq ∨ (∃ raw x, i = .pduPushnack raw ∧ b.nackq = s.blk.nackq ++ [x]) ∨
      (i = .pduPopnack ∧ b.nackq = s.blk.nackq.tail) ∨
      (b.nackq = [] ∧ (i = .pduClear ∨ i = .sysReset)) ∨ i = .pduDes ∨ i = .hbDetach)

/-! ### The sequence-number unit -/

/-- `SN.CREATE raw` (R81): for every operand, `A` ignored, the result is `raw mod 1024`, the status `OK`
and the state unchanged. -/
def Obligations.SnCreateReduces : Prop :=
  (∀ a b : Word, decode (commandWord 0x10 a b) = .ok (.snCreate b)) ∧
  ∀ (s : State) (raw : Word),
    exec (.snCreate raw) s = .next (answered s .ok (BitVec.ofNat 32 (raw.toNat % 1024)) s.blk)

/-- `SN.ADD a, delta` (R82, operand types by the spec's decision D8): the integer sum mod 1024, which is
also the sum of the residues mod 1024; `OK`, the block unchanged. -/
def Obligations.SnAddIsTheSumModulo1024 : Prop :=
  ∀ (s : State) (a delta : Word),
    exec (.snAdd a delta) s =
      .next (answered s .ok (BitVec.ofNat 32 ((a.toNat + delta.toNat) % 1024)) s.blk) ∧
    (a.toNat + delta.toNat) % 1024 = (a.toNat % 1024 + delta.toNat % 1024) % 1024

/-- `SN.SUB a, delta` (R83, operand types by the spec's decision D8): the integer difference by the
floored mod 1024; `OK`, the block unchanged. Subtracting what was added gives `a mod 1024` back (marked
derived in R83). -/
def Obligations.SnSubIsTheDifferenceModulo1024 : Prop :=
  (∀ (s : State) (a delta : Word),
    exec (.snSub a delta) s =
      .next (answered s .ok (BitVec.ofNat 32 ((a.toNat + 1024 - delta.toNat % 1024) % 1024)) s.blk) ∧
    (((a.toNat + 1024 - delta.toNat % 1024) % 1024 : Nat) : Int) =
      ((a.toNat : Int) - (delta.toNat : Int)) % 1024) ∧
  (∀ (s t : State) (a delta x y : Word),
    exec (.snAdd a delta) s = .next (answered s .ok x s.blk) →
    exec (.snSub x delta) t = .next (answered t .ok y t.blk) → y.toNat = a.toNat % 1024)

/-- `SN.CMP a, b` (R84, R85; formula and result format by the spec's decision D7): with the distances of
the two operands ahead of `SNBASE`, going up mod 1024, the result is 1 when the first is less, 2 when they
are equal, 4 when it is greater; `OK`, the block unchanged. -/
def Obligations.SnCmpOrdersRelativeToSnbase : Prop :=
  ∀ (s : State) (a b : Word) (da db : Nat),
    da = (a.toNat % 1024 + 1024 - s.blk.snbase.toNat) % 1024 →
    db = (b.toNat % 1024 + 1024 - s.blk.snbase.toNat) % 1024 →
    exec (.snCmp a b) s =
      .next (answered s .ok (if da < db then 1 else if da = db then 2 else 4) s.blk)

/-- The properties of the order that R84 lists (it marks them as derived): EQ exactly on equal residues;
for a fixed base a strict total order with the base as its least element; with base 0 the numeric order;
the order relative to `base` is the order relative to 0 of the distances; swapping the operands swaps LT
and GT. -/
def Obligations.ComparatorIsATotalOrderFromItsBase : Prop :=
  ∀ base a b c : Residue,
    (snCmp base a b = .eq ↔ a = b) ∧
    (snCmp base a b = .lt ↔ snCmp base b a = .gt) ∧
    (snCmp base a b = .lt → snCmp base b c = .lt → snCmp base a c = .lt) ∧
    (a ≠ base → snCmp base base a = .lt) ∧
    (a ≠ base - 1 → snCmp base a (base - 1) = .lt) ∧
    (snCmp 0 a b = .lt ↔ a.toNat < b.toNat) ∧
    snCmp base a b = snCmp 0 (a - base) (b - base)

/-- The host reads the six predicates off `R` (R86, which the spec marks as derived): exactly one of the
three results comes, `R != 2` is inequality, `R[2] = 0` is "not greater", `R[0] = 0` is "not less". -/
def Obligations.PredicatesReadOffTheComparison : Prop :=
  ∀ (s : State) (a b r : Word),
    exec (.snCmp a b) s = .next (answered s .ok r s.blk) →
    (r = 2 ↔ create a = create b) ∧
    (r = 1 ↔ (create a - s.blk.snbase).toNat < (create b - s.blk.snbase).toNat) ∧
    (r = 4 ↔ (create b - s.blk.snbase).toNat < (create a - s.blk.snbase).toNat) ∧
    (r.getLsbD 2 = false ↔ (create a - s.blk.snbase).toNat ≤ (create b - s.blk.snbase).toNat) ∧
    (r.getLsbD 0 = false ↔ (create b - s.blk.snbase).toNat ≤ (create a - s.blk.snbase).toNat)

/-! ### The bit-stream writer -/

/-- `BW.RESET` (R91, the spec's decision D10): in every state `WBITS` becomes empty and `WFIN` 0; `OK`,
`R = 0`, nothing else changes. -/
def Obligations.BwResetMakesAFreshWriter : Prop :=
  ∀ s : State, exec .bwReset s = .next (answered s .ok 0 { s.blk with wbits := [], wfin := false })

/-- `BW.WRITE width, value` (R92; the refusals are the spec's decisions D9, D10, D11, D18): the four
checks in the rule's order, each with nothing changed; else the `width` bits of `value` are appended, the
most significant first, and nothing else changes. -/
def Obligations.BwWriteAppendsOrRefuses : Prop :=
  ∀ (s : State) (w v : Word),
    (w.toNat < 1 ∨ 32 < w.toNat →
      exec (.bwWrite w v) s = .next (answered s (.fail .illegalCommand) 0 s.blk)) ∧
    (1 ≤ w.toNat → w.toNat ≤ 32 → s.blk.wfin = true →
      exec (.bwWrite w v) s = .next (answered s (.fail .illegalState) 0 s.blk)) ∧
    (1 ≤ w.toNat → w.toNat ≤ 32 → s.blk.wfin = false → 2 ^ w.toNat ≤ v.toNat →
      exec (.bwWrite w v) s = .next (answered s (.fail .fieldOverflow) 0 s.blk)) ∧
    (1 ≤ w.toNat → w.toNat ≤ 32 → s.blk.wfin = false → v.toNat < 2 ^ w.toNat →
      (∃ c ∈ s.params.bufCap, 8 * c < s.blk.wbits.length + w.toNat) →
      exec (.bwWrite w v) s = .next (answered s (.fail .capacityExceeded) 0 s.blk)) ∧
    (1 ≤ w.toNat → w.toNat ≤ 32 → s.blk.wfin = false → v.toNat < 2 ^ w.toNat →
      (∀ c ∈ s.params.bufCap, s.blk.wbits.length + w.toNat ≤ 8 * c) →
      exec (.bwWrite w v) s = .next (answered s .ok 0
        { s.blk with
          wbits := s.blk.wbits ++ (List.range w.toNat).map fun k => v.getLsbD (w.toNat - 1 - k) }))

/-- `BW.FINISH` (R93, the spec's decision D10): refused on a finished writer; else `WFIN` becomes 1,
nothing else changes, and `R` is `ceil(WPOS/8)`, the byte length of `TXB` (its low 32 bits when `BUF_CAP`
is infinite and it is longer: notes/assumptions/3.md). -/
def Obligations.BwFinishSetsTheFlagOnce : Prop :=
  ∀ s : State,
    (s.blk.wfin = true → exec .bwFinish s = .next (answered s (.fail .illegalState) 0 s.blk)) ∧
    (s.blk.wfin = false → exec .bwFinish s =
      .next (answered s .ok (BitVec.ofNat 32 ((s.blk.wbits.length + 7) / 8)) { s.blk with wfin := true })) ∧
    (pack s.blk.wbits).length = (s.blk.wbits.length + 7) / 8

/-- The laws of the writer (R94, marked derived): after `BW.RESET`, any successful writes and `BW.FINISH`,
run as commands, each field reads back unchanged at its own position of `TXB`, `TXB` has `ceil(WPOS/8)`
bytes, and every bit of it from `WPOS` on is 0. -/
def Obligations.WrittenFieldsReadBack : Prop :=
  ∀ (s : State) (fs : List (Word × Word)),
    (∀ f ∈ fs, 1 ≤ f.1.toNat ∧ f.1.toNat ≤ 32 ∧ f.2.toNat < 2 ^ f.1.toNat) →
    (∀ c ∈ s.params.bufCap, (fs.map fun f => f.1.toNat).sum ≤ 8 * c) →
    s.requests =
      encode .bwReset :: (fs.map fun f => encode (.bwWrite f.1 f.2)) ++ [encode .bwFinish] →
    ∃ t : State, Sys2Proof.core.run (fs.length + 2) s = .next t ∧ t.blk.wfin = true ∧
      t.blk.wbits.length = (fs.map fun f => f.1.toNat).sum ∧
      (pack t.blk.wbits).length = ((fs.map fun f => f.1.toNat).sum + 7) / 8 ∧
      (∀ j (hj : j < fs.length),
        field (pack t.blk.wbits) ((fs.take j).map fun f => f.1.toNat).sum fs[j].1.toNat = fs[j].2.toNat) ∧
      (∀ k, (fs.map fun f => f.1.toNat).sum ≤ k → k < 8 * (pack t.blk.wbits).length →
        bitAt (pack t.blk.wbits) k = false)

/-- Splitting a write changes nothing (R94, marked derived): one write of `w1 + w2` bits leaves the block
that the write of its high part and then the write of its low part leave. -/
def Obligations.SplitWriteLeavesTheSameBits : Prop :=
  ∀ (s : State) (w1 w2 w hi lo v : Word),
    1 ≤ w1.toNat → 1 ≤ w2.toNat → w.toNat = w1.toNat + w2.toNat → w.toNat ≤ 32 →
    hi.toNat < 2 ^ w1.toNat → lo.toNat < 2 ^ w2.toNat → v.toNat = hi.toNat * 2 ^ w2.toNat + lo.toNat →
    s.blk.wfin = false → (∀ c ∈ s.params.bufCap, s.blk.wbits.length + w.toNat ≤ 8 * c) →
    ∃ b b' : Block,
      exec (.bwWrite w v) s = .next (answered s .ok 0 b) ∧
      exec (.bwWrite w1 hi) s = .next (answered s .ok 0 b') ∧
      exec (.bwWrite w2 lo) (answered s .ok 0 b') = .next (answered (answered s .ok 0 b') .ok 0 b)

/-! ### The bit-stream reader -/

/-- `BR.RESET` (R101, the spec's decision D22): in every state `RPOS` becomes 0; `OK`, `R = 0`, `RXB` and
everything else unchanged. -/
def Obligations.BrResetRewinds : Prop :=
  ∀ s : State, exec .brReset s = .next (answered s .ok 0 { s.blk with rpos := 0 })

/-- `BR.READ width` (R102; the refusals are the spec's decisions D11, D12): an illegal width, or fewer
than `width` bits left, consumes nothing; else the result is the `width` bits from the cursor, the first
the most significant, the bits above them 0, and the cursor grows by exactly `width`. -/
def Obligations.BrReadConsumesOrRefuses : Prop :=
  ∀ (s : State) (w : Word),
    (w.toNat < 1 ∨ 32 < w.toNat →
      exec (.brRead w) s = .next (answered s (.fail .illegalCommand) 0 s.blk)) ∧
    (1 ≤ w.toNat → w.toNat ≤ 32 → 8 * s.blk.rxb.length < s.blk.rpos + w.toNat →
      exec (.brRead w) s = .next (answered s (.fail .truncatedInput) 0 s.blk)) ∧
    (1 ≤ w.toNat → w.toNat ≤ 32 → s.blk.rpos + w.toNat ≤ 8 * s.blk.rxb.length →
      ∃ r : Word,
        exec (.brRead w) s = .next (answered s .ok r { s.blk with rpos := s.blk.rpos + w.toNat }) ∧
        (∀ k < w.toNat, r.getLsbD (w.toNat - 1 - k) = bitAt s.blk.rxb (s.blk.rpos + k)) ∧
        (∀ k, w.toNat ≤ k → r.getLsbD k = false))

/-- `BR.REMAIN` (R103): always `OK`, the block unchanged, and the result is `8*len(RXB) - RPOS` where it
fits 32 bits. Where it does not (an infinite `BUF_CAP` only), the spec states no result, and the statement
holds for every value of the model's free value (notes/assumptions/4.md). In a state with `RPOS` past the
end of `RXB`, which the invariant rules out, that the difference and so the result is 0 is the model's choice
(notes/assumptions/11.md). -/
def Obligations.BrRemainCountsTheBitsLeft : Prop :=
  ∀ s : State, ∃ r : Word, exec .brRemain s = .next (answered s .ok r s.blk) ∧
    (8 * s.blk.rxb.length - s.blk.rpos < 2 ^ 32 → r.toNat = 8 * s.blk.rxb.length - s.blk.rpos)

/-- Reading `w1` then `w2` bits gives `hi` and `lo` with `hi*2^w2 + lo` what one read of `w1 + w2` bits
gives from the same cursor, and leaves the same block (R104, marked derived). -/
def Obligations.SplitReadGivesTheSameValue : Prop :=
  ∀ (s : State) (w1 w2 w : Word),
    1 ≤ w1.toNat → 1 ≤ w2.toNat → w.toNat = w1.toNat + w2.toNat → w.toNat ≤ 32 →
    s.blk.rpos + w.toNat ≤ 8 * s.blk.rxb.length →
    ∃ (v hi lo : Word) (b b' : Block),
      exec (.brRead w) s = .next (answered s .ok v b) ∧
      exec (.brRead w1) s = .next (answered s .ok hi b') ∧
      exec (.brRead w2) (answered s .ok hi b') = .next (answered (answered s .ok hi b') .ok lo b) ∧
      v.toNat = hi.toNat * 2 ^ w2.toNat + lo.toNat

/-- The reader is the inverse of the writer (R104, marked derived): over the packed bits of any fields,
reads of the same widths, run as commands from cursor 0, all succeed and return the fields' values in
order; then the padding width `(-WPOS) mod 8` is left. -/
def Obligations.ReaderInvertsTheWriter : Prop :=
  ∀ (s : State) (fs : List (Word × Word)),
    (∀ f ∈ fs, 1 ≤ f.1.toNat ∧ f.1.toNat ≤ 32 ∧ f.2.toNat < 2 ^ f.1.toNat) →
    s.blk.rxb = pack (fs.flatMap fun f =>
      (List.range f.1.toNat).map fun k => f.2.getLsbD (f.1.toNat - 1 - k)) →
    s.blk.rpos = 0 →
    s.requests = (fs.map fun f => encode (.brRead f.1)) →
    ∃ t : State, Sys2Proof.core.run fs.length s = .next t ∧
      t.responses = s.responses ++ (fs.map fun f => { st := .ok, r := f.2 }) ∧
      t.blk = { s.blk with rpos := (fs.map fun f => f.1.toNat).sum } ∧
      8 * t.blk.rxb.length - t.blk.rpos = (8 - (fs.map fun f => f.1.toNat).sum % 8) % 8

/-! ### The STATUS PDU codec -/

/-- `PDU.CLEAR` (R111, the spec's decision D13): `ACK` becomes 0 and `NACKQ` empty, in every state. -/
def Obligations.PduClearEmptiesThePdu : Prop :=
  ∀ s : State, exec .pduClear s = .next (answered s .ok 0 { s.blk with ack := 0, nackq := [] })

/-- `PDU.SETACK raw` (R112): `ACK` becomes `raw mod 1024` for every operand, `A` ignored; always `OK`,
`NACKQ` and everything else unchanged; with an empty `NACKQ`, `PDU.SETACK 8` then `PDU.SER` produces
`00 20`. -/
def Obligations.PduSetackStoresTheResidue : Prop :=
  (∀ a b : Word, decode (commandWord 0x41 a b) = .ok (.pduSetack b)) ∧
  (∀ (s : State) (raw : Word),
    exec (.pduSetack raw) s =
      .next (answered s .ok 0 { s.blk with ack := BitVec.ofNat 10 (raw.toNat % 1024) })) ∧
  (∀ s : State, s.blk.nackq = [] → ∃ t u : State,
    exec (.pduSetack 8) s = .next t ∧ exec .pduSer t = .next u ∧
      u.blk.wfin = true ∧ pack u.blk.wbits = [0x00, 0x20])

/-- `PDU.PUSHNACK raw` (R113; the refusal is the spec's decision D18): `raw mod 1024` goes to the tail of
`NACKQ`, whatever is there already; when the queue is full nothing changes. -/
def Obligations.PduPushnackAppendsAtTheTail : Prop :=
  ∀ (s : State) (raw : Word),
    ((∃ c ∈ s.params.nackCap, c ≤ s.blk.nackq.length) →
      exec (.pduPushnack raw) s = .next (answered s (.fail .capacityExceeded) 0 s.blk)) ∧
    ((∀ c ∈ s.params.nackCap, s.blk.nackq.length < c) →
      exec (.pduPushnack raw) s = .next (answered s .ok 0
        { s.blk with nackq := s.blk.nackq ++ [BitVec.ofNat 10 (raw.toNat % 1024)] }))

/-- `PDU.GETACK` (R114, the spec's decision D13): in every state `OK` with `ACK`, nothing changed. -/
def Obligations.PduGetackReturnsAck : Prop :=
  ∀ s : State, exec .pduGetack s = .next (answered s .ok (BitVec.ofNat 32 s.blk.ack.toNat) s.blk)

/-- `PDU.POPNACK` (R115; the sentinel's value is the spec's decision D16): on an empty queue `OK` with
`0xFFFFFFFF` and nothing changed; else `OK` with the head, which is removed. -/
def Obligations.PduPopnackTakesTheHeadOrSentinel : Prop :=
  ∀ s : State,
    (s.blk.nackq = [] → exec .pduPopnack s = .next (answered s .ok 0xFFFFFFFF s.blk)) ∧
    (∀ (v : Residue) (rest : List Residue), s.blk.nackq = v :: rest →
      exec .pduPopnack s =
        .next (answered s .ok (BitVec.ofNat 32 v.toNat) { s.blk with nackq := rest }))

/-- Repeated pops give the entries in order, head first, and then the sentinel, any number of times,
leaving the queue empty and everything else unchanged (R115). -/
def Obligations.PopsDrainTheQueueInOrder : Prop :=
  ∀ (s : State) (m : Nat),
    s.requests = List.replicate (s.blk.nackq.length + m) (encode .pduPopnack) →
    ∃ t : State, Sys2Proof.core.run (s.blk.nackq.length + m) s = .next t ∧
      t.responses = s.responses ++
        (s.blk.nackq.map fun v => { st := .ok, r := BitVec.ofNat 32 v.toNat }) ++
        List.replicate m { st := .ok, r := 0xFFFFFFFF } ∧
      t.blk = { s.blk with nackq := [] }

/-- The wire layout (R61), bit for bit: the fields of the encoded PDU at their stream indices, each E1 bit
1 exactly when another entry follows (the chain of R63), padding all 0. -/
def Obligations.EncodedPduHasTheWireLayout : Prop :=
  ∀ (ack : Residue) (nacks : List Residue),
    bitAt (ser ack nacks) 0 = false ∧
    field (ser ack nacks) 1 3 = 0 ∧
    field (ser ack nacks) 4 10 = ack.toNat ∧
    bitAt (ser ack nacks) 14 = decide (1 ≤ nacks.length) ∧
    (∀ k (hk : k < nacks.length),
      field (ser ack nacks) (15 + 11 * k) 10 = nacks[k].toNat ∧
      bitAt (ser ack nacks) (25 + 11 * k) = decide (k + 1 < nacks.length)) ∧
    (∀ i, 15 + 11 * nacks.length ≤ i → i < 8 * ((15 + 11 * nacks.length + 7) / 8) →
      bitAt (ser ack nacks) i = false) ∧
    (ser ack nacks).length = (15 + 11 * nacks.length + 7) / 8

/-- The length law (R62): `15 + 11*n` bits, `ceil((15 + 11*n)/8)` bytes, the shortest PDU 15 bits and 2
bytes; the padding is `(-(15 + 11*n)) mod 8` bits, repeats with period 8 in `n` and takes every value from
0 to 7. -/
def Obligations.EncodedPduHasItsLength : Prop :=
  (∀ (ack : Residue) (nacks : List Residue),
    (serBits ack nacks).length = 15 + 11 * nacks.length ∧
    (ser ack nacks).length = (15 + 11 * nacks.length + 7) / 8 ∧
    8 * (ser ack nacks).length - (serBits ack nacks).length = (8 - (15 + 11 * nacks.length) % 8) % 8 ∧
    (nacks = [] → (serBits ack nacks).length = 15 ∧ (ser ack nacks).length = 2) ∧
    2 ≤ (ser ack nacks).length) ∧
  (∀ n : Nat, (8 - (15 + 11 * (n + 8)) % 8) % 8 = (8 - (15 + 11 * n) % 8) % 8) ∧
  (∀ p < 8, ∃ n < 8, (8 - (15 + 11 * n) % 8) % 8 = p)

/-- `PDU.SER` (R117, the spec's decision D22): in every state, whatever the writer held, `OK`; the writer
holds the encoded PDU and is finished, `R` is its byte length (its low 32 bits: notes/assumptions/3.md),
and the PDU registers, the reader, the packet and `SNBASE` are unchanged. -/
def Obligations.PduSerLoadsTheWriter : Prop :=
  ∀ s : State, exec .pduSer s =
    .next (answered s .ok (BitVec.ofNat 32 ((15 + 11 * s.blk.nackq.length + 7) / 8))
      { s.blk with wbits := serBits s.blk.ack s.blk.nackq, wfin := true })

/-- When the decoder succeeds (R118, with the spec's decisions D14, D15, D18): exactly when the buffer has
2 bytes or more, its first four bits are 0, and its E1 chain is `n` ones and a zero, whole within the
buffer, with `n` within `NACK_CAP`; the result is then the fields at their stream indices and
`hlen = ceil((15 + 11*n)/8)`. -/
def Obligations.DecodeSucceedsExactlyOnWholePdus : Prop :=
  ∀ (cap : Option Nat) (buf : List Byte) (d : Decoded),
    des cap buf = .ok d ↔
      2 ≤ buf.length ∧ field buf 0 4 = 0 ∧ d.ack.toNat = field buf 4 10 ∧
      (∀ k (hk : k < d.nacks.length),
        bitAt buf (14 + 11 * k) = true ∧ d.nacks[k].toNat = field buf (15 + 11 * k) 10) ∧
      bitAt buf (14 + 11 * d.nacks.length) = false ∧
      15 + 11 * d.nacks.length ≤ 8 * buf.length ∧
      (∀ c ∈ cap, d.nacks.length ≤ c) ∧
      d.hlen = (15 + 11 * d.nacks.length + 7) / 8

/-- Which failure the decoder reports (R118, R164, with the spec's decisions D14, D15, D28): the length
check, then the header, then the first entry that fails, truncation before capacity. -/
def Obligations.DecodeReportsTheFirstFailure : Prop :=
  ∀ (cap : Option Nat) (buf : List Byte),
    (buf.length < 2 → des cap buf = .error .truncatedInput) ∧
    (2 ≤ buf.length → field buf 0 4 ≠ 0 → des cap buf = .error .invalidHeader) ∧
    (∀ k, 2 ≤ buf.length → field buf 0 4 = 0 → (∀ j < k, bitAt buf (14 + 11 * j) = true) →
      (∀ c ∈ cap, k ≤ c) → 14 + 11 * k ≤ 8 * buf.length → 8 * buf.length < 15 + 11 * k →
      des cap buf = .error .truncatedInput) ∧
    (∀ k, 2 ≤ buf.length → field buf 0 4 = 0 → (∀ j ≤ k, bitAt buf (14 + 11 * j) = true) →
      (∀ c ∈ cap, k ≤ c) → 15 + 11 * k ≤ 8 * buf.length → 8 * buf.length < 25 + 11 * k →
      des cap buf = .error .truncatedInput) ∧
    (∀ k, 2 ≤ buf.length → field buf 0 4 = 0 → (∀ j ≤ k, bitAt buf (14 + 11 * j) = true) →
      cap = some k → 25 + 11 * k ≤ 8 * buf.length → des cap buf = .error .capacityExceeded)

/-- `PDU.DES` (R119, with the spec's decisions D4, D17): it decodes `RXB` from its first byte, whatever
`RPOS` was. On failure nothing changes; on success `ACK`, `NACKQ` and `RPOS = 8*hlen` are written, `R` is
`hlen` (its low 32 bits: notes/assumptions/3.md), and nothing else changes. -/
def Obligations.PduDesStoresTheDecodedPdu : Prop :=
  ∀ s : State,
    (∀ f, des s.params.nackCap s.blk.rxb = .error f →
      exec .pduDes s = .next (answered s (.fail f) 0 s.blk)) ∧
    (∀ d, des s.params.nackCap s.blk.rxb = .ok d →
      exec .pduDes s = .next (answered s .ok (BitVec.ofNat 32 d.hlen)
        { s.blk with ack := d.ack, nackq := d.nacks, rpos := 8 * d.hlen }))

/-- Round trip (R120, marked derived): for every acknowledgment, every list within `NACK_CAP` and every
bytes after the PDU, decoding the encoded PDU gives it back, with the length law's byte count. -/
def Obligations.DecodeInvertsEncode : Prop :=
  ∀ (cap : Option Nat) (ack : Residue) (nacks : List Residue) (rest : List Byte),
    (∀ c ∈ cap, nacks.length ≤ c) →
    des cap (ser ack nacks ++ rest) =
      .ok { ack := ack, nacks := nacks, hlen := (15 + 11 * nacks.length + 7) / 8 }

/-- Padding (R64): after the final E1 the encoder adds zero bits up to the byte boundary, and the decoder
does not look at them: a buffer that agrees with a decodable one up to the final E1 and is long enough
decodes to the same PDU, whatever its padding bits and the bytes after them. -/
def Obligations.PaddingIsZeroAndNotChecked : Prop :=
  (∀ (ack : Residue) (nacks : List Residue) (i : Nat),
    15 + 11 * nacks.length ≤ i → i < 8 * (ser ack nacks).length → bitAt (ser ack nacks) i = false) ∧
  (∀ (cap : Option Nat) (a b : List Byte) (d : Decoded),
    des cap a = .ok d → d.hlen ≤ b.length →
    (∀ i < 15 + 11 * d.nacks.length, bitAt b i = bitAt a i) → des cap b = .ok d)

/-- A successful decode lies within its buffer (R121), and encoding its result gives back the header's bytes
exactly when the header's padding bits are 0 (R122). Both rules are marked derived. -/
def Obligations.ReencodingGivesTheHeaderBackWhenPaddingIsZero : Prop :=
  ∀ (cap : Option Nat) (buf : List Byte) (d : Decoded), des cap buf = .ok d →
    d.hlen = (15 + 11 * d.nacks.length + 7) / 8 ∧ 2 ≤ d.hlen ∧ d.hlen ≤ buf.length ∧
    (ser d.ack d.nacks = buf.take d.hlen ↔
      ∀ i, 15 + 11 * d.nacks.length ≤ i → i < 8 * d.hlen → bitAt buf i = false)

/-- `PDU.SER` leaves the block that R123's sequence of primitive writer commands leaves, run as commands,
and returns the same `R` as its last (R123, marked derived), from any state with its items in range. -/
def Obligations.PduSerIsThePrimitiveSequence : Prop :=
  ∀ s : State, Inv s →
    s.requests =
      ([.bwReset, .bwWrite 1 0, .bwWrite 3 0, .bwWrite 10 (s.blk.ack.setWidth 32)] ++
        (s.blk.nackq.flatMap fun n => [.bwWrite 1 1, .bwWrite 10 (n.setWidth 32)]) ++
        [.bwWrite 1 0, .bwFinish] : List Instr).map encode →
    ∃ (t : State) (r : Word) (b : Block) (earlier : List Response),
      Sys2Proof.core.run s.requests.length s = .next t ∧
      exec .pduSer s = .next (answered s .ok r b) ∧ t.blk = b ∧
      t.responses = earlier ++ [{ st := .ok, r := r }]

/-- A successful `PDU.DES` leaves the cursor where R123's sequence of primitive reader commands leaves it,
and those reads return the values that `PDU.DES` stores (R123, marked derived); the padding read, when
there is padding, returns bits that are thrown away. -/
def Obligations.PduDesIsThePrimitiveSequence : Prop :=
  ∀ (s : State) (d : Decoded) (pad : Nat), des s.params.nackCap s.blk.rxb = .ok d →
    pad = (8 - (15 + 11 * d.nacks.length) % 8) % 8 →
    s.requests =
      ([.brReset, .brRead 4, .brRead 10] ++ (d.nacks.flatMap fun _ => [.brRead 1, .brRead 10]) ++ [.brRead 1] ++
        (if pad = 0 then [] else [.brRead (BitVec.ofNat 32 pad)]) : List Instr).map encode →
    ∃ (t : State) (thrownAway : List Response) (r : Word) (b : Block),
      Sys2Proof.core.run s.requests.length s = .next t ∧
      t.responses = s.responses ++
        [{ st := .ok, r := 0 }, { st := .ok, r := 0 }, { st := .ok, r := d.ack.setWidth 32 }] ++
        (d.nacks.flatMap fun n => [{ st := .ok, r := 1 }, { st := .ok, r := n.setWidth 32 }]) ++
        [{ st := .ok, r := 0 }] ++ thrownAway ∧
      (∀ x ∈ thrownAway, x.st = .ok) ∧ thrownAway.length = (if pad = 0 then 0 else 1) ∧
      exec .pduDes s = .next (answered s .ok r b) ∧ t.blk.rpos = b.rpos ∧
      t.blk = { s.blk with rpos := b.rpos } ∧ b.ack = d.ack ∧ b.nackq = d.nacks

/-! ### The HeaderBuffer adapter -/

/-- `HB.ATTACH` (R131, with the spec's decisions D18, D21): when the packet would pass `BUF_CAP` bytes
nothing changes, the writer included; else the writer is left as `PDU.SER` leaves it, the header stands
before the old content of `PKT`, `R` is its byte length (its low 32 bits: notes/assumptions/3.md), and
nothing else changes. -/
def Obligations.HbAttachPrependsTheHeader : Prop :=
  ∀ s : State,
    ((∃ c ∈ s.params.bufCap, c < (15 + 11 * s.blk.nackq.length + 7) / 8 + s.blk.pkt.length) →
      exec .hbAttach s = .next (answered s (.fail .capacityExceeded) 0 s.blk)) ∧
    ((∀ c ∈ s.params.bufCap, (15 + 11 * s.blk.nackq.length + 7) / 8 + s.blk.pkt.length ≤ c) →
      exec .hbAttach s =
        .next (answered s .ok (BitVec.ofNat 32 ((15 + 11 * s.blk.nackq.length + 7) / 8))
          { s.blk with
            wbits := serBits s.blk.ack s.blk.nackq, wfin := true
            pkt := ser s.blk.ack s.blk.nackq ++ s.blk.pkt }))

/-- `HB.DETACH` (R132, with the spec's decisions D4, D21): it decodes the packet from its front. On failure
nothing changes; on success the reader is bound to a copy of the old packet just past the header, the PDU
registers hold the PDU, exactly `hlen` bytes leave the packet's front, `R` is `hlen` (its low 32 bits:
notes/assumptions/3.md), and nothing else changes. -/
def Obligations.HbDetachRemovesTheHeader : Prop :=
  ∀ s : State,
    (∀ f, des s.params.nackCap s.blk.pkt = .error f →
      exec .hbDetach s = .next (answered s (.fail f) 0 s.blk)) ∧
    (∀ d, des s.params.nackCap s.blk.pkt = .ok d →
      exec .hbDetach s = .next (answered s .ok (BitVec.ofNat 32 d.hlen)
        { s.blk with
          rxb := s.blk.pkt, rpos := 8 * d.hlen, ack := d.ack, nackq := d.nacks
          pkt := s.blk.pkt.drop d.hlen }))

/-- Attach, then detach, is the identity on the packet and the PDU, with the same `R` both times, from any
state with `NACKQ` within `NACK_CAP`; whatever stands between the two, as long as it leaves the packet and
the parameters (R133, marked derived). -/
def Obligations.DetachUndoesAttach : Prop :=
  ∀ (s u : State) (r : Word) (b : Block),
    (∀ c ∈ s.params.nackCap, s.blk.nackq.length ≤ c) →
    exec .hbAttach s = .next (answered s .ok r b) → u.blk.pkt = b.pkt → u.params = s.params →
    ∃ b' : Block, exec .hbDetach u = .next (answered u .ok r b') ∧
      b'.pkt = s.blk.pkt ∧ b'.ack = s.blk.ack ∧ b'.nackq = s.blk.nackq

/-! ### System, register-access and buffer-access commands -/

/-- `CSR.RD` (R33 to R37, R141; the spec's decision D23): the value of each of the four registers, its
reserved bits 0; a number that is no register is `IllegalCommand`; the block is unchanged. -/
def Obligations.CsrRdReadsTheRegisterMap : Prop :=
  ∀ s : State,
    exec (.csrRd .snbase) s = .next (answered s .ok (BitVec.ofNat 32 s.blk.snbase.toNat) s.blk) ∧
    (s.blk.wfin = false → exec (.csrRd .status) s = .next (answered s .ok 0 s.blk)) ∧
    (s.blk.wfin = true → exec (.csrRd .status) s = .next (answered s .ok 1 s.blk)) ∧
    exec (.csrRd .wpos) s = .next (answered s .ok (BitVec.ofNat 32 (s.blk.wbits.length % 2 ^ 32)) s.blk) ∧
    exec (.csrRd .rpos) s = .next (answered s .ok (BitVec.ofNat 32 (s.blk.rpos % 2 ^ 32)) s.blk) ∧
    ∀ n : Word, exec (.csrRd (.absent n)) s = .next (answered s (.fail .illegalCommand) 0 s.blk)

/-- `CSR.WR` (R34, R142; the spec's decisions D7, D23): `SNBASE` takes the value mod 1024 and nothing else
changes; every other register is read-only or absent, and a write to it is `IllegalCommand`. -/
def Obligations.CsrWrWritesSnbaseOnly : Prop :=
  ∀ (s : State) (v : Word),
    exec (.csrWr .snbase v) s =
      .next (answered s .ok 0 { s.blk with snbase := BitVec.ofNat 10 (v.toNat % 1024) }) ∧
    ∀ c : Csr, c ≠ .snbase →
      exec (.csrWr c v) s = .next (answered s (.fail .illegalCommand) 0 s.blk)

/-- `BUF.CLEAR` (R41, R143; the spec's decision D19): `RXB` is emptied and the reader rewound, or `PKT`
emptied, and nothing else changes; any other space is `IllegalCommand`. -/
def Obligations.BufClearEmptiesTheSpace : Prop :=
  ∀ s : State,
    exec (.bufClear .rxb) s = .next (answered s .ok 0 { s.blk with rxb := [], rpos := 0 }) ∧
    exec (.bufClear .pkt) s = .next (answered s .ok 0 { s.blk with pkt := [] }) ∧
    ∀ sp : Space, sp ≠ .rxb → sp ≠ .pkt →
      exec (.bufClear sp) s = .next (answered s (.fail .illegalCommand) 0 s.blk)

/-- `BUF.APPEND` (R144; the spec's decisions D18, D19, D20): the checks in the rule's order, each with
nothing changed; else the byte goes to the back of the space and nothing else changes, `RPOS` included. -/
def Obligations.BufAppendAddsAtTheBack : Prop :=
  ∀ (s : State) (x : Word),
    (∀ sp : Space, sp ≠ .rxb → sp ≠ .pkt →
      exec (.bufAppend sp x) s = .next (answered s (.fail .illegalCommand) 0 s.blk)) ∧
    (256 ≤ x.toNat →
      exec (.bufAppend .rxb x) s = .next (answered s (.fail .fieldOverflow) 0 s.blk) ∧
      exec (.bufAppend .pkt x) s = .next (answered s (.fail .fieldOverflow) 0 s.blk)) ∧
    (x.toNat < 256 → (∃ c ∈ s.params.bufCap, c < s.blk.rxb.length + 1) →
      exec (.bufAppend .rxb x) s = .next (answered s (.fail .capacityExceeded) 0 s.blk)) ∧
    (x.toNat < 256 → (∃ c ∈ s.params.bufCap, c < s.blk.pkt.length + 1) →
      exec (.bufAppend .pkt x) s = .next (answered s (.fail .capacityExceeded) 0 s.blk)) ∧
    (x.toNat < 256 → (∀ c ∈ s.params.bufCap, s.blk.rxb.length + 1 ≤ c) →
      exec (.bufAppend .rxb x) s =
        .next (answered s .ok 0 { s.blk with rxb := s.blk.rxb ++ [BitVec.ofNat 8 x.toNat] })) ∧
    (x.toNat < 256 → (∀ c ∈ s.params.bufCap, s.blk.pkt.length + 1 ≤ c) →
      exec (.bufAppend .pkt x) s =
        .next (answered s .ok 0 { s.blk with pkt := s.blk.pkt ++ [BitVec.ofNat 8 x.toNat] }))

/-- `BUF.LD` (R41, R145; the spec's decisions D10, D19): the checks in the rule's order; else the byte at
the index of `TXB`, `RXB` or `PKT`. The block is unchanged in every case. -/
def Obligations.BufLdReadsTheByte : Prop :=
  ∀ (s : State) (x : Word),
    (∀ n : Word, exec (.bufLd (.absent n) x) s = .next (answered s (.fail .illegalCommand) 0 s.blk)) ∧
    (s.blk.wfin = false → exec (.bufLd .txb x) s = .next (answered s (.fail .illegalState) 0 s.blk)) ∧
    (∀ (sp : Space) (buf : List Byte),
      (sp = .txb ∧ s.blk.wfin = true ∧ buf = pack s.blk.wbits) ∨ (sp = .rxb ∧ buf = s.blk.rxb) ∨
        (sp = .pkt ∧ buf = s.blk.pkt) →
      (buf.length ≤ x.toNat →
        exec (.bufLd sp x) s = .next (answered s (.fail .indexOutOfRange) 0 s.blk)) ∧
      (∀ h : x.toNat < buf.length,
        exec (.bufLd sp x) s = .next (answered s .ok (BitVec.ofNat 32 (buf[x.toNat]).toNat) s.blk)))

/-- `BUF.LEN` (R41, R146; the spec's decisions D10, D19): the checks in the rule's order; else the length
of `TXB`, `RXB` or `PKT` mod 2^32. The block is unchanged in every case. -/
def Obligations.BufLenReadsTheLength : Prop :=
  ∀ s : State,
    (∀ n : Word, exec (.bufLen (.absent n)) s = .next (answered s (.fail .illegalCommand) 0 s.blk)) ∧
    (s.blk.wfin = false → exec (.bufLen .txb) s = .next (answered s (.fail .illegalState) 0 s.blk)) ∧
    (∀ (sp : Space) (buf : List Byte),
      (sp = .txb ∧ s.blk.wfin = true ∧ buf = pack s.blk.wbits) ∨ (sp = .rxb ∧ buf = s.blk.rxb) ∨
        (sp = .pkt ∧ buf = s.blk.pkt) →
      exec (.bufLen sp) s = .next (answered s .ok (BitVec.ofNat 32 (buf.length % 2 ^ 32)) s.blk))
end

