-- ==== Sys2Proof/Laws/Bits.lean ====
section
/-! SUPPORT. What the bit-stream functions do: one lemma or two for each of `bitsValue`, `msb`, `bitAt`,
`field`, `pack` (spec/00_scope.md R8, R9). -/

namespace Sys2Proof.Machine

/-! ### `bitsValue` -/

theorem bitsValue_lt (f : Nat → Bool) (w : Nat) : bitsValue f w < 2 ^ w := by
  induction w with
  | zero => simp [bitsValue]
  | succ w ih =>
    have := Bool.toNat_le (f w)
    simp only [bitsValue, Nat.pow_succ]
    omega

theorem bitsValue_congr {f g : Nat → Bool} {w : Nat} (h : ∀ k < w, f k = g k) :
    bitsValue f w = bitsValue g w := by
  induction w with
  | zero => rfl
  | succ w ih =>
    simp only [bitsValue, ih fun k hk => h k (by omega), h w (by omega)]

/-- Bit `i` of the value is the `i`-th of the bits counted from the last. -/
theorem bitsValue_testBit (f : Nat → Bool) (w i : Nat) :
    (bitsValue f w).testBit i = (decide (i < w) && f (w - 1 - i)) := by
  induction w generalizing i with
  | zero => simp [bitsValue]
  | succ w ih =>
    cases i with
    | zero => cases h : f w <;> simp [bitsValue, h, Nat.testBit_zero]
    | succ i =>
      have h2 : (2 * bitsValue f w + (f w).toNat) / 2 = bitsValue f w := by
        have := Bool.toNat_le (f w)
        omega
      rw [bitsValue, Nat.testBit_succ, h2, ih]
      simp [Nat.sub_sub, Nat.add_comm]

/-- The bits of `v`, most significant first, have the value `v mod 2^w`. -/
theorem bitsValue_testBits (v w : Nat) : bitsValue (fun k => v.testBit (w - 1 - k)) w = v % 2 ^ w := by
  apply Nat.eq_of_testBit_eq
  intro i
  rw [bitsValue_testBit, Nat.testBit_mod_two_pow]
  by_cases h : i < w
  · simp [h, show w - 1 - (w - 1 - i) = i by omega]
  · simp [h]

/-- The value of `w1 + w2` bits is that of the first `w1`, shifted, plus that of the last `w2`. -/
theorem bitsValue_add (f : Nat → Bool) (w1 w2 : Nat) :
    bitsValue f (w1 + w2) = bitsValue f w1 * 2 ^ w2 + bitsValue (fun k => f (w1 + k)) w2 := by
  induction w2 with
  | zero => simp [bitsValue]
  | succ w2 ih =>
    rw [← Nat.add_assoc, bitsValue, ih, bitsValue, Nat.pow_succ]
    ring

/-! ### `msb` -/

@[simp] theorem msb_length (v w : Nat) : (msb v w).length = w := by simp [msb]

theorem msb_getD {v w k : Nat} (h : k < w) : (msb v w).getD k false = v.testBit (w - 1 - k) := by
  simp [msb, List.getD_eq_getElem?_getD, h]

/-- A field of `w1 + w2` bits is its high part followed by its low part. -/
theorem msb_add {hi lo w1 w2 : Nat} (h : lo < 2 ^ w2) :
    msb (hi * 2 ^ w2 + lo) (w1 + w2) = msb hi w1 ++ msb lo w2 := by
  rw [Nat.mul_comm]
  apply List.ext_getElem
  · simp
  · intro k hk _
    simp only [msb_length] at hk
    rw [List.getElem_append]
    split
    · next h1 =>
      simp only [msb_length] at h1
      simp only [msb, List.getElem_map, List.getElem_range]
      rw [Nat.testBit_two_pow_mul_add _ h]
      simp [show ¬ w1 + w2 - 1 - k < w2 by omega, show w1 + w2 - 1 - k - w2 = w1 - 1 - k by omega]
    · next h1 =>
      simp only [msb_length, not_lt] at h1
      simp only [msb, List.getElem_map, List.getElem_range, List.length_map, List.length_range]
      rw [Nat.testBit_two_pow_mul_add _ h]
      rw [if_pos (show w1 + w2 - 1 - k < w2 by omega),
        show w1 + w2 - 1 - k = w2 - 1 - (k - w1) by omega]

/-! ### `bitAt` -/

theorem bitAt_append_left {a b : List Byte} {i : Nat} (h : i < 8 * a.length) :
    bitAt (a ++ b) i = bitAt a i := by
  rw [bitAt, bitAt, List.getD_append _ _ _ _ (show i / 8 < a.length by omega)]

theorem bitAt_append_right {a b : List Byte} {i : Nat} (h : 8 * a.length ≤ i) :
    bitAt (a ++ b) i = bitAt b (i - 8 * a.length) := by
  rw [bitAt, bitAt, List.getD_append_right _ _ _ _ (show a.length ≤ i / 8 by omega)]
  rw [show i / 8 - a.length = (i - 8 * a.length) / 8 by omega,
    show (i - 8 * a.length) % 8 = i % 8 by omega]

/-- Two buffers of one length with the same bits are the same buffer. -/
theorem eq_of_bitAt {a b : List Byte} (hl : a.length = b.length)
    (h : ∀ i < 8 * a.length, bitAt a i = bitAt b i) : a = b := by
  apply List.ext_getElem hl
  intro j hj hj'
  apply BitVec.eq_of_getLsbD_eq
  intro k hk
  have := h (8 * j + (7 - k)) (by omega)
  have hd : (8 * j + (7 - k)) / 8 = j := by omega
  have hm : 7 - (8 * j + (7 - k)) % 8 = k := by omega
  rw [bitAt, bitAt, hd, hm] at this
  simpa [List.getD_eq_getElem?_getD, hj, hj'] using this

/-! ### `field` -/

theorem field_lt (buf : List Byte) (p w : Nat) : field buf p w < 2 ^ w := bitsValue_lt _ _

theorem field_congr {a b : List Byte} {p q w : Nat} (h : ∀ k < w, bitAt a (p + k) = bitAt b (q + k)) :
    field a p w = field b q w := bitsValue_congr h

/-- Two fields read one after the other are one wide field (spec/20_memory.md R46). -/
theorem field_add (buf : List Byte) (p w1 w2 : Nat) :
    field buf p (w1 + w2) = field buf p w1 * 2 ^ w2 + field buf (p + w1) w2 := by
  simp only [field, bitsValue_add, Nat.add_assoc]

theorem field_append_left {a b : List Byte} {p w : Nat} (h : p + w ≤ 8 * a.length) :
    field (a ++ b) p w = field a p w :=
  field_congr fun k hk => bitAt_append_left (by omega)

theorem field_one (buf : List Byte) (p : Nat) : field buf p 1 = (bitAt buf p).toNat := by
  simp [field, bitsValue]

/-! ### `pack` -/

@[simp] theorem pack_length (bits : List Bool) : (pack bits).length = bytesFor bits.length := by
  simp [pack]

/-- `bitat(pack(bits), i) = bits[i]`, and the bits beyond the last are 0 (R9). -/
theorem bitAt_pack (bits : List Bool) (i : Nat) : bitAt (pack bits) i = bits.getD i false := by
  by_cases h : i / 8 < bytesFor bits.length
  · rw [bitAt, List.getD_eq_getElem?_getD, pack, List.getElem?_map, List.getElem?_range h]
    simp only [Option.map_some, Option.getD_some, packByte, BitVec.getLsbD_ofNat]
    rw [bitsValue_testBit]
    have h1 : 8 * (i / 8) + (8 - 1 - (7 - i % 8)) = i := by omega
    have h2 : 7 - i % 8 < 8 := by omega
    simp [h1, h2]
  · have h1 : bits.length ≤ i := by unfold bytesFor at h; omega
    rw [bitAt, List.getD_eq_default _ _ (by simpa using h), List.getD_eq_default _ _ h1]
    simp

/-- A field of `pack(bits)` is the value of its bits. -/
theorem field_pack (bits : List Bool) (p w : Nat) :
    field (pack bits) p w = bitsValue (fun k => bits.getD (p + k) false) w := by
  simp only [field, bitAt_pack]

/-- A field written at its place among other bits reads back (spec/41_bitstream_writer.md R94). -/
theorem field_pack_msb (pre post : List Bool) {v w : Nat} (h : v < 2 ^ w) :
    field (pack (pre ++ msb v w ++ post)) pre.length w = v := by
  refine Eq.trans ?_ ((bitsValue_testBits v w).trans (Nat.mod_eq_of_lt h))
  rw [field_pack]
  apply bitsValue_congr
  intro k hk
  rw [List.append_assoc, List.getD_append_right _ _ _ _ (by omega),
    List.getD_append _ _ _ _ (by simp; omega)]
  rw [show pre.length + k - pre.length = k by omega, msb_getD hk]

end Sys2Proof.Machine
end

