-- ==== Sys2Proof/Laws/Decode.lean ====
section
/-! SUPPORT. The fields of a command word, and the selectors both ways (spec/30_encoding.md R70, R73). -/

namespace Sys2Proof

@[simp] theorem opField_commandWord (op : Opcode) (a b : Word) : opField (commandWord op a b) = op := by
  apply BitVec.eq_of_getLsbD_eq
  intro i hi
  simp only [opField, commandWord, BitVec.getLsbD_extractLsb', BitVec.getLsbD_append]
  simp [hi, show ¬ 64 + i < 32 by omega, show ¬ 64 + i - 32 < 32 by omega,
    show 64 + i - 32 - 32 = i by omega]

@[simp] theorem aField_commandWord (op : Opcode) (a b : Word) : aField (commandWord op a b) = a := by
  apply BitVec.eq_of_getLsbD_eq
  intro i hi
  simp only [aField, commandWord, BitVec.getLsbD_extractLsb', BitVec.getLsbD_append]
  simp [hi, show ¬ 32 + i < 32 by omega]

@[simp] theorem bField_commandWord (op : Opcode) (a b : Word) : bField (commandWord op a b) = b := by
  apply BitVec.eq_of_getLsbD_eq
  intro i hi
  simp only [bField, commandWord, BitVec.getLsbD_extractLsb', BitVec.getLsbD_append]
  simp [hi]

/-- A word is its three fields. -/
theorem commandWord_fields (cw : CommandWord) :
    commandWord (opField cw) (aField cw) (bField cw) = cw := by
  apply BitVec.eq_of_getLsbD_eq
  intro i hi
  simp only [opField, aField, bField, commandWord, BitVec.getLsbD_extractLsb', BitVec.getLsbD_append]
  by_cases h1 : i < 32
  · simp [h1]
  · by_cases h2 : i - 32 < 32
    · simp [h1, h2, show 32 + (i - 32) = i by omega]
    · simp [h1, h2, show i - 32 - 32 < 8 by omega, show 64 + (i - 32 - 32) = i by omega]

/-- The decoder reads the fields it is given. -/
@[simp] theorem decode_commandWord (op : Opcode) (a b : Word) :
    decode (commandWord op a b) = decodeFields op a b := by
  simp [decode]

/-- Which selector `csrOf` gives, case by case. -/
theorem csrOf_cases (a : Word) :
    (a = 0 ∧ csrOf a = .snbase) ∨ (a = 1 ∧ csrOf a = .status) ∨ (a = 2 ∧ csrOf a = .wpos) ∨
      (a = 3 ∧ csrOf a = .rpos) ∨ (4 ≤ a.toNat ∧ csrOf a = .absent a) := by
  by_cases h : 4 ≤ a.toNat
  · refine .inr (.inr (.inr (.inr ⟨h, ?_⟩)))
    unfold csrOf
    split <;> first | omega | rfl
  · have h4 : a.toNat = 0 ∨ a.toNat = 1 ∨ a.toNat = 2 ∨ a.toNat = 3 := by omega
    rcases h4 with h | h | h | h
    · have ha : a = 0 := BitVec.eq_of_toNat_eq h
      subst ha; simp [csrOf]
    · have ha : a = 1 := BitVec.eq_of_toNat_eq h
      subst ha; simp [csrOf]
    · have ha : a = 2 := BitVec.eq_of_toNat_eq h
      subst ha; simp [csrOf]
    · have ha : a = 3 := BitVec.eq_of_toNat_eq h
      subst ha; simp [csrOf]

/-- Which space `spaceOf` gives, case by case. -/
theorem spaceOf_cases (a : Word) :
    (a = 0 ∧ spaceOf a = .txb) ∨ (a = 1 ∧ spaceOf a = .rxb) ∨ (a = 2 ∧ spaceOf a = .pkt) ∨
      (3 ≤ a.toNat ∧ spaceOf a = .absent a) := by
  by_cases h : 3 ≤ a.toNat
  · refine .inr (.inr (.inr ⟨h, ?_⟩))
    unfold spaceOf
    split <;> first | omega | rfl
  · have h3 : a.toNat = 0 ∨ a.toNat = 1 ∨ a.toNat = 2 := by omega
    rcases h3 with h | h | h
    · have ha : a = 0 := BitVec.eq_of_toNat_eq h
      subst ha; simp [spaceOf]
    · have ha : a = 1 := BitVec.eq_of_toNat_eq h
      subst ha; simp [spaceOf]
    · have ha : a = 2 := BitVec.eq_of_toNat_eq h
      subst ha; simp [spaceOf]

theorem csrOf_csrNumber {c : Csr} (h : c.wellFormed = true) : csrOf (csrNumber c) = c := by
  cases c with
  | absent n =>
    have hn : 4 ≤ n.toNat := by simpa [Csr.wellFormed] using h
    simp only [csrNumber, csrOf]
    split <;> first | omega | rfl
  | _ => rfl

theorem spaceOf_spaceNumber {c : Space} (h : c.wellFormed = true) : spaceOf (spaceNumber c) = c := by
  cases c with
  | absent n =>
    have hn : 3 ≤ n.toNat := by simpa [Space.wellFormed] using h
    simp only [spaceNumber, spaceOf]
    split <;> first | omega | rfl
  | _ => rfl

theorem csrOf_wellFormed (a : Word) : (csrOf a).wellFormed = true := by
  rcases csrOf_cases a with ⟨_, h⟩ | ⟨_, h⟩ | ⟨_, h⟩ | ⟨_, h⟩ | ⟨h1, h⟩ <;> simp [h, Csr.wellFormed]
  exact h1

theorem spaceOf_wellFormed (a : Word) : (spaceOf a).wellFormed = true := by
  rcases spaceOf_cases a with ⟨_, h⟩ | ⟨_, h⟩ | ⟨_, h⟩ | ⟨h1, h⟩ <;> simp [h, Space.wellFormed]
  exact h1

theorem csrNumber_csrOf (a : Word) : csrNumber (csrOf a) = a := by
  rcases csrOf_cases a with ⟨ha, h⟩ | ⟨ha, h⟩ | ⟨ha, h⟩ | ⟨ha, h⟩ | ⟨_, h⟩ <;> simp [h, csrNumber] <;>
    simp [ha]

theorem spaceNumber_spaceOf (a : Word) : spaceNumber (spaceOf a) = a := by
  rcases spaceOf_cases a with ⟨ha, h⟩ | ⟨ha, h⟩ | ⟨ha, h⟩ | ⟨_, h⟩ <;> simp [h, spaceNumber] <;>
    simp [ha]

end Sys2Proof
end

