-- ==== Sys2Proof/Laws/State.lean ====
section
/-! SUPPORT. One lemma for each field of each update: what the updates of Machine/Ops.lean leave in the
eight items, so that no later proof unfolds a record update. -/

namespace Sys2Proof.Machine

section

variable (b : Block)

/-! ### `loadWriter` -/

@[simp] theorem Block.loadWriter_snbase (bits : List Bool) :
    (b.loadWriter bits).snbase = b.snbase := rfl
@[simp] theorem Block.loadWriter_wbits (bits : List Bool) : (b.loadWriter bits).wbits = bits := rfl
@[simp] theorem Block.loadWriter_wfin (bits : List Bool) : (b.loadWriter bits).wfin = true := rfl
@[simp] theorem Block.loadWriter_rxb (bits : List Bool) : (b.loadWriter bits).rxb = b.rxb := rfl
@[simp] theorem Block.loadWriter_rpos (bits : List Bool) : (b.loadWriter bits).rpos = b.rpos := rfl
@[simp] theorem Block.loadWriter_pkt (bits : List Bool) : (b.loadWriter bits).pkt = b.pkt := rfl
@[simp] theorem Block.loadWriter_ack (bits : List Bool) : (b.loadWriter bits).ack = b.ack := rfl
@[simp] theorem Block.loadWriter_nackq (bits : List Bool) :
    (b.loadWriter bits).nackq = b.nackq := rfl

/-! ### `appendBits` -/

@[simp] theorem Block.appendBits_snbase (v w : Nat) : (b.appendBits v w).snbase = b.snbase := rfl
@[simp] theorem Block.appendBits_wbits (v w : Nat) :
    (b.appendBits v w).wbits = b.wbits ++ msb v w := rfl
@[simp] theorem Block.appendBits_wfin (v w : Nat) : (b.appendBits v w).wfin = b.wfin := rfl
@[simp] theorem Block.appendBits_rxb (v w : Nat) : (b.appendBits v w).rxb = b.rxb := rfl
@[simp] theorem Block.appendBits_rpos (v w : Nat) : (b.appendBits v w).rpos = b.rpos := rfl
@[simp] theorem Block.appendBits_pkt (v w : Nat) : (b.appendBits v w).pkt = b.pkt := rfl
@[simp] theorem Block.appendBits_ack (v w : Nat) : (b.appendBits v w).ack = b.ack := rfl
@[simp] theorem Block.appendBits_nackq (v w : Nat) : (b.appendBits v w).nackq = b.nackq := rfl

/-! ### `clearRxb` -/

@[simp] theorem Block.clearRxb_snbase : (b.clearRxb).snbase = b.snbase := rfl
@[simp] theorem Block.clearRxb_wbits : (b.clearRxb).wbits = b.wbits := rfl
@[simp] theorem Block.clearRxb_wfin : (b.clearRxb).wfin = b.wfin := rfl
@[simp] theorem Block.clearRxb_rxb : (b.clearRxb).rxb = [] := rfl
@[simp] theorem Block.clearRxb_rpos : (b.clearRxb).rpos = 0 := rfl
@[simp] theorem Block.clearRxb_pkt : (b.clearRxb).pkt = b.pkt := rfl
@[simp] theorem Block.clearRxb_ack : (b.clearRxb).ack = b.ack := rfl
@[simp] theorem Block.clearRxb_nackq : (b.clearRxb).nackq = b.nackq := rfl

/-! ### `clearPkt` -/

@[simp] theorem Block.clearPkt_snbase : (b.clearPkt).snbase = b.snbase := rfl
@[simp] theorem Block.clearPkt_wbits : (b.clearPkt).wbits = b.wbits := rfl
@[simp] theorem Block.clearPkt_wfin : (b.clearPkt).wfin = b.wfin := rfl
@[simp] theorem Block.clearPkt_rxb : (b.clearPkt).rxb = b.rxb := rfl
@[simp] theorem Block.clearPkt_rpos : (b.clearPkt).rpos = b.rpos := rfl
@[simp] theorem Block.clearPkt_pkt : (b.clearPkt).pkt = [] := rfl
@[simp] theorem Block.clearPkt_ack : (b.clearPkt).ack = b.ack := rfl
@[simp] theorem Block.clearPkt_nackq : (b.clearPkt).nackq = b.nackq := rfl

/-! ### `appendRxb` -/

@[simp] theorem Block.appendRxb_snbase (x : Byte) : (b.appendRxb x).snbase = b.snbase := rfl
@[simp] theorem Block.appendRxb_wbits (x : Byte) : (b.appendRxb x).wbits = b.wbits := rfl
@[simp] theorem Block.appendRxb_wfin (x : Byte) : (b.appendRxb x).wfin = b.wfin := rfl
@[simp] theorem Block.appendRxb_rxb (x : Byte) : (b.appendRxb x).rxb = b.rxb ++ [x] := rfl
@[simp] theorem Block.appendRxb_rpos (x : Byte) : (b.appendRxb x).rpos = b.rpos := rfl
@[simp] theorem Block.appendRxb_pkt (x : Byte) : (b.appendRxb x).pkt = b.pkt := rfl
@[simp] theorem Block.appendRxb_ack (x : Byte) : (b.appendRxb x).ack = b.ack := rfl
@[simp] theorem Block.appendRxb_nackq (x : Byte) : (b.appendRxb x).nackq = b.nackq := rfl

/-! ### `appendPkt` -/

@[simp] theorem Block.appendPkt_snbase (x : Byte) : (b.appendPkt x).snbase = b.snbase := rfl
@[simp] theorem Block.appendPkt_wbits (x : Byte) : (b.appendPkt x).wbits = b.wbits := rfl
@[simp] theorem Block.appendPkt_wfin (x : Byte) : (b.appendPkt x).wfin = b.wfin := rfl
@[simp] theorem Block.appendPkt_rxb (x : Byte) : (b.appendPkt x).rxb = b.rxb := rfl
@[simp] theorem Block.appendPkt_rpos (x : Byte) : (b.appendPkt x).rpos = b.rpos := rfl
@[simp] theorem Block.appendPkt_pkt (x : Byte) : (b.appendPkt x).pkt = b.pkt ++ [x] := rfl
@[simp] theorem Block.appendPkt_ack (x : Byte) : (b.appendPkt x).ack = b.ack := rfl
@[simp] theorem Block.appendPkt_nackq (x : Byte) : (b.appendPkt x).nackq = b.nackq := rfl

/-! ### `prependPkt` -/

@[simp] theorem Block.prependPkt_snbase (h : List Byte) : (b.prependPkt h).snbase = b.snbase := rfl
@[simp] theorem Block.prependPkt_wbits (h : List Byte) : (b.prependPkt h).wbits = b.wbits := rfl
@[simp] theorem Block.prependPkt_wfin (h : List Byte) : (b.prependPkt h).wfin = b.wfin := rfl
@[simp] theorem Block.prependPkt_rxb (h : List Byte) : (b.prependPkt h).rxb = b.rxb := rfl
@[simp] theorem Block.prependPkt_rpos (h : List Byte) : (b.prependPkt h).rpos = b.rpos := rfl
@[simp] theorem Block.prependPkt_pkt (h : List Byte) : (b.prependPkt h).pkt = h ++ b.pkt := rfl
@[simp] theorem Block.prependPkt_ack (h : List Byte) : (b.prependPkt h).ack = b.ack := rfl
@[simp] theorem Block.prependPkt_nackq (h : List Byte) : (b.prependPkt h).nackq = b.nackq := rfl

/-! ### `dropPkt` -/

@[simp] theorem Block.dropPkt_snbase (n : Nat) : (b.dropPkt n).snbase = b.snbase := rfl
@[simp] theorem Block.dropPkt_wbits (n : Nat) : (b.dropPkt n).wbits = b.wbits := rfl
@[simp] theorem Block.dropPkt_wfin (n : Nat) : (b.dropPkt n).wfin = b.wfin := rfl
@[simp] theorem Block.dropPkt_rxb (n : Nat) : (b.dropPkt n).rxb = b.rxb := rfl
@[simp] theorem Block.dropPkt_rpos (n : Nat) : (b.dropPkt n).rpos = b.rpos := rfl
@[simp] theorem Block.dropPkt_pkt (n : Nat) : (b.dropPkt n).pkt = b.pkt.drop n := rfl
@[simp] theorem Block.dropPkt_ack (n : Nat) : (b.dropPkt n).ack = b.ack := rfl
@[simp] theorem Block.dropPkt_nackq (n : Nat) : (b.dropPkt n).nackq = b.nackq := rfl

/-! ### `bindReader` -/

@[simp] theorem Block.bindReader_snbase (buf : List Byte) (p : Nat) :
    (b.bindReader buf p).snbase = b.snbase := rfl
@[simp] theorem Block.bindReader_wbits (buf : List Byte) (p : Nat) :
    (b.bindReader buf p).wbits = b.wbits := rfl
@[simp] theorem Block.bindReader_wfin (buf : List Byte) (p : Nat) :
    (b.bindReader buf p).wfin = b.wfin := rfl
@[simp] theorem Block.bindReader_rxb (buf : List Byte) (p : Nat) :
    (b.bindReader buf p).rxb = buf := rfl
@[simp] theorem Block.bindReader_rpos (buf : List Byte) (p : Nat) :
    (b.bindReader buf p).rpos = p := rfl
@[simp] theorem Block.bindReader_pkt (buf : List Byte) (p : Nat) :
    (b.bindReader buf p).pkt = b.pkt := rfl
@[simp] theorem Block.bindReader_ack (buf : List Byte) (p : Nat) :
    (b.bindReader buf p).ack = b.ack := rfl
@[simp] theorem Block.bindReader_nackq (buf : List Byte) (p : Nat) :
    (b.bindReader buf p).nackq = b.nackq := rfl

/-! ### `setPdu` -/

@[simp] theorem Block.setPdu_snbase (ack : Residue) (nacks : List Residue) :
    (b.setPdu ack nacks).snbase = b.snbase := rfl
@[simp] theorem Block.setPdu_wbits (ack : Residue) (nacks : List Residue) :
    (b.setPdu ack nacks).wbits = b.wbits := rfl
@[simp] theorem Block.setPdu_wfin (ack : Residue) (nacks : List Residue) :
    (b.setPdu ack nacks).wfin = b.wfin := rfl
@[simp] theorem Block.setPdu_rxb (ack : Residue) (nacks : List Residue) :
    (b.setPdu ack nacks).rxb = b.rxb := rfl
@[simp] theorem Block.setPdu_rpos (ack : Residue) (nacks : List Residue) :
    (b.setPdu ack nacks).rpos = b.rpos := rfl
@[simp] theorem Block.setPdu_pkt (ack : Residue) (nacks : List Residue) :
    (b.setPdu ack nacks).pkt = b.pkt := rfl
@[simp] theorem Block.setPdu_ack (ack : Residue) (nacks : List Residue) :
    (b.setPdu ack nacks).ack = ack := rfl
@[simp] theorem Block.setPdu_nackq (ack : Residue) (nacks : List Residue) :
    (b.setPdu ack nacks).nackq = nacks := rfl

end

end Sys2Proof.Machine
end

