-- ==== Sys2Proof/Laws/Ops.lean ====
section
/-! SUPPORT. What each shared operation can do, said once: how a command ends, the request port, the
capacity check, the operand checks and the result forms. -/

namespace Sys2Proof.Machine

/-! ### How a command ends -/

/-- A `return` gives a next state, with the block and the response it names and nothing else changed. -/
theorem respond_next {s t : State} {b : Block} {r : Word} :
    respond s b r = .next t ↔
      t = { s with blk := b, responses := s.responses ++ [{ st := .ok, r := r }] } := by
  rw [respond, Host.Outcome.next.injEq, eq_comm]

/-- A `raise` gives a next state in which one response was added and nothing else changed. -/
theorem raise_next {s t : State} {f : Failure} :
    raise f s = .next t ↔ t = { s with responses := s.responses ++ [{ st := .fail f, r := 0 }] } := by
  rw [raise, Host.Outcome.next.injEq, eq_comm]

@[simp] theorem rejectWord_eq_raise (e : DecodeError) (s : State) :
    rejectWord e s = raise .illegalCommand s := by
  cases e
  rfl

/-! ### The request port -/

theorem fetch_nil {s : State} (h : s.requests = []) : fetch s = none := by
  simp only [fetch, h]

theorem fetch_cons {s : State} {cw : CommandWord} {rest : List CommandWord}
    (h : s.requests = cw :: rest) : fetch s = some (cw, { s with requests := rest }) := by
  simp only [fetch, h]

/-! ### Capacities -/

@[simp] theorem overCap_none (n : Nat) : overCap none n = false := rfl

@[simp] theorem overCap_some (c n : Nat) : overCap (some c) n = decide (c < n) := rfl

@[simp] theorem overBitCap_none (n : Nat) : overBitCap none n = false := rfl

@[simp] theorem overBitCap_some (c n : Nat) : overBitCap (some c) n = decide (8 * c < n) := rfl

/-- What fits still fits when it gets smaller. -/
theorem overCap_mono {cap : Option Nat} {m n : Nat} (h : overCap cap n = false) (hm : m ≤ n) :
    overCap cap m = false := by
  cases cap <;> simp_all
  omega

theorem overBitCap_mono {cap : Option Nat} {m n : Nat} (h : overBitCap cap n = false) (hm : m ≤ n) :
    overBitCap cap m = false := by
  cases cap <;> simp_all
  omega

/-- Bits fit exactly when the bytes they occupy fit. -/
theorem overBitCap_eq (cap : Option Nat) (n : Nat) : overBitCap cap n = overCap cap (bytesFor n) := by
  cases cap
  · rfl
  · simp only [overBitCap_some, overCap_some, bytesFor, decide_eq_decide]
    omega

/-! ### Operands and results -/

@[simp] theorem create_toNat (raw : Word) : (create raw).toNat = raw.toNat % 1024 := by
  simp [create]

@[simp] theorem residueWord_toNat (v : Residue) : (residueWord v).toNat = v.toNat := by
  have := v.isLt
  simp only [residueWord, BitVec.toNat_setWidth]
  omega

theorem widthLegal_iff (width : Word) :
    widthLegal width = true ↔ 1 ≤ width.toNat ∧ width.toNat ≤ 32 := by
  simp [widthLegal]

theorem fieldOverflows_iff (width value : Word) :
    fieldOverflows width value = true ↔ 2 ^ width.toNat ≤ value.toNat := by
  simp [fieldOverflows]

theorem byteOverflows_iff (byte : Word) : byteOverflows byte = true ↔ 256 ≤ byte.toNat := by
  simp [byteOverflows]

/-- The comparator says EQ exactly when the residues are equal (spec/40_sequence_number.md R84). -/
theorem snCmp_eq_iff (base a b : Residue) : snCmp base a b = .eq ↔ a = b := by
  unfold snCmp
  constructor
  · intro h
    split at h
    · simp at h
    · split at h
      · next h2 =>
        have := BitVec.eq_of_toNat_eq h2
        simpa using this
      · simp at h
  · rintro rfl
    simp

theorem snCmp_lt_iff (base a b : Residue) :
    snCmp base a b = .lt ↔ (a - base).toNat < (b - base).toNat := by
  unfold snCmp
  split
  · next h => simp only [h]
  · next h => split <;> simp only [reduceCtorEq, h]

theorem snCmp_gt_iff (base a b : Residue) :
    snCmp base a b = .gt ↔ (b - base).toNat < (a - base).toNat := by
  unfold snCmp
  split
  · next h => simp only [reduceCtorEq, false_iff]; omega
  · next h =>
    split
    · next h2 => simp only [reduceCtorEq, false_iff]; omega
    · next h2 => simp only [true_iff]; omega

/-- Subtraction of residues is mod 1024. -/
theorem residue_sub_toNat (a b : Residue) : (a - b).toNat = (a.toNat + 1024 - b.toNat) % 1024 := by
  have := b.isLt
  rw [BitVec.toNat_sub]
  omega

/-- Where the bits left fit the result, `BR.REMAIN` gives them; the free value plays no part. -/
theorem remainWord_of_lt {b : Block} (h : b.bitsLeft < 2 ^ 32) : (remainWord b).toNat = b.bitsLeft := by
  rw [remainWord, if_pos h, countWord, BitVec.toNat_ofNat, Nat.mod_eq_of_lt h]

/-- `TXB` has the bytes that `WPOS` bits occupy. -/
@[simp] theorem Block.txb_length (b : Block) : b.txb.length = bytesFor b.wpos := by
  simp [Block.txb, Block.wpos]

end Sys2Proof.Machine
end

