-- ==== Sys2Proof/Laws/Wire.lean ====
section
/-! SUPPORT. The wire format: the length law, the bits of an encoded PDU, and the decoder's loop said
without its fuel (spec/30_encoding.md R61, R62, spec/43_status_pdu_codec.md R116, R118). -/

namespace Sys2Proof.Machine

/-! ### Encode -/

theorem pduBits_eq (n : Nat) : pduBits n = 15 + 11 * n := rfl

theorem pduBytes_eq (n : Nat) : pduBytes n = (22 + 11 * n) / 8 := by
  rw [pduBytes, pduBits_eq, bytesFor]
  congr 1
  omega

@[simp] theorem entryBits_length (nack : Residue) : (entryBits nack).length = 11 := by
  simp [entryBits]

theorem flatMap_entryBits_length (nacks : List Residue) :
    (nacks.flatMap entryBits).length = 11 * nacks.length := by
  induction nacks with
  | nil => rfl
  | cons n ns ih =>
    simp only [List.flatMap_cons, List.length_append, entryBits_length, ih, List.length_cons]
    omega

/-- The length law in bits: `15 + 11*n` (R62). -/
@[simp] theorem serBits_length (ack : Residue) (nacks : List Residue) :
    (serBits ack nacks).length = pduBits nacks.length := by
  simp only [serBits, List.length_append, msb_length, flatMap_entryBits_length, pduBits_eq]
  simp
  omega

/-- The length law in bytes (R62). -/
@[simp] theorem ser_length (ack : Residue) (nacks : List Residue) :
    (ser ack nacks).length = pduBytes nacks.length := by
  rw [ser, pack_length, serBits_length, pduBytes]

/-- The stream in front of the E1 chain: 14 bits. -/
theorem serBits_split (ack : Residue) (nacks : List Residue) :
    serBits ack nacks =
      (msb 0 1 ++ msb 0 3) ++ msb ack.toNat 10 ++ (nacks.flatMap entryBits ++ msb 0 1) := by
  simp [serBits, List.append_assoc]

/-! ### Decode -/

/-- One pass of the decoder's loop, as R118 writes it: with fuel enough for the rest of the buffer, the
fuel says nothing. -/
theorem desChain_unfold (cap : Option Nat) (buf : List Byte) (fuel p : Nat) (nacks : List Residue)
    (hf : 8 * buf.length ≤ p + 11 * fuel) :
    desChain cap buf fuel p nacks =
      if p + 1 > 8 * buf.length then .error .truncatedInput
      else if bitAt buf p = false then .ok (nacks, p + 1)
      else if p + 1 + 10 > 8 * buf.length then .error .truncatedInput
      else if overCap cap (nacks.length + 1) then .error .capacityExceeded
      else desChain cap buf (fuel - 1) (p + 11) (nacks ++ [snField buf (p + 1)]) := by
  cases fuel with
  | zero => rw [desChain, if_pos (by omega)]
  | succ fuel => rfl

/-- What a successful chain has read: the E1 bits 1 up to the last entry and 0 after it, the entries, the
room for them in the buffer and in the queue. -/
theorem desChain_ok {cap : Option Nat} {buf : List Byte} {fuel p q : Nat} {nacks out : List Residue}
    (h : desChain cap buf fuel p nacks = .ok (out, q)) :
    ∃ more : List Residue, out = nacks ++ more ∧ q = p + 11 * more.length + 1 ∧
      q ≤ 8 * buf.length ∧
      (∀ k (hk : k < more.length),
        bitAt buf (p + 11 * k) = true ∧ more[k] = snField buf (p + 11 * k + 1)) ∧
      bitAt buf (p + 11 * more.length) = false ∧
      (more = [] ∨ overCap cap out.length = false) := by
  induction fuel generalizing p nacks with
  | zero => simp [desChain] at h
  | succ fuel ih =>
    rw [desChain] at h
    split at h
    · cases h
    · next h1 =>
      split at h
      · next h2 =>
        cases h
        exact ⟨[], by simp, by simp, by omega, by simp, by simpa using h2, .inl rfl⟩
      · next h2 =>
        split at h
        · cases h
        · split at h
          · cases h
          · next h3 h4 =>
            obtain ⟨more, ho, hq, hl, hk, he, hc⟩ := ih h
            refine ⟨snField buf (p + 1) :: more, by simp [ho], ?_, hl, ?_, ?_, .inr ?_⟩
            · simp only [List.length_cons]
              omega
            · intro k hk'
              cases k with
              | zero => simpa using h2
              | succ k =>
                have := hk k (by simpa using hk')
                simpa [show p + 11 * (k + 1) = p + 11 + 11 * k by ring] using this
            · simpa [show p + 11 * (more.length + 1) = p + 11 + 11 * more.length by ring] using he
            · rcases hc with rfl | hc
              · simpa [ho] using h4
              · exact hc

/-- What a successful decode has checked and read. -/
theorem des_ok {cap : Option Nat} {buf : List Byte} {d : Decoded} (h : des cap buf = .ok d) :
    2 ≤ buf.length ∧ field buf 0 4 = 0 ∧ d.ack = snField buf 4 ∧
      d.hlen = pduBytes d.nacks.length ∧ pduBits d.nacks.length ≤ 8 * buf.length ∧
      (∀ k (hk : k < d.nacks.length),
        bitAt buf (14 + 11 * k) = true ∧ d.nacks[k] = snField buf (15 + 11 * k)) ∧
      bitAt buf (14 + 11 * d.nacks.length) = false ∧
      (d.nacks = [] ∨ overCap cap d.nacks.length = false) := by
  unfold des at h
  split at h
  · cases h
  · next h1 =>
    split at h
    · cases h
    · next h2 =>
      split at h
      · cases h
      · next nacks p h3 =>
        obtain ⟨more, ho, hq, hl, hk, he, hc⟩ := desChain_ok h3
        cases h
        simp only [List.nil_append] at ho
        subst ho
        refine ⟨not_lt.mp h1, by simpa using h2, rfl, ?_, ?_, ?_, he, hc⟩
        · simp only [pduBytes, pduBits_eq, hq]
          congr 1
          omega
        · simp only [pduBits_eq]
          omega
        · intro k hk'
          have := hk k hk'
          rwa [show 14 + 11 * k + 1 = 15 + 11 * k by omega] at this

/-- A decoded header lies within the buffer (spec/43_status_pdu_codec.md R121). -/
theorem des_ok_hlen {cap : Option Nat} {buf : List Byte} {d : Decoded} (h : des cap buf = .ok d) :
    2 ≤ d.hlen ∧ d.hlen ≤ buf.length := by
  obtain ⟨_, _, _, hh, hl, _⟩ := des_ok h
  rw [pduBits_eq] at hl
  rw [hh, pduBytes_eq]
  omega

end Sys2Proof.Machine
end

