-- ==== Sys2Proof/Laws/Exec.lean ====
section
/-! SUPPORT. What a command and a step can do, said once: the shape of every outcome, and the cases of the
operations that several commands share. -/

namespace Sys2Proof.Machine

open Sys2Proof.Safety

theorem respond_eq (s : State) (b : Block) (r : Word) : respond s b r = .next (answered s .ok r b) := rfl

theorem raise_eq (f : Failure) (s : State) : raise f s = .next (answered s (.fail f) 0 s.blk) := rfl

/-- One response tells the status, the result and the block. -/
theorem answered_inj {s : State} {st st' : Status} {r r' : Word} {b b' : Block} :
    answered s st r b = answered s st' r' b' ↔ st = st' ∧ r = r' ∧ b = b' := by
  constructor
  · intro h
    simp only [answered, State.mk.injEq, List.append_cancel_left_eq, List.cons.injEq,
      Response.mk.injEq] at h
    exact ⟨h.2.2.2.1.1, h.2.2.2.1.2, h.2.1⟩
  · rintro ⟨rfl, rfl, rfl⟩
    rfl

/-- A `return` answers `OK`. -/
theorem respond_answered {s : State} {b b' : Block} {r r' : Word} {st : Status} :
    respond s b r = .next (answered s st r' b') ↔ st = .ok ∧ r' = r ∧ b' = b := by
  rw [respond_eq, Host.Outcome.next.injEq, answered_inj]
  constructor <;> rintro ⟨rfl, rfl, rfl⟩ <;> exact ⟨rfl, rfl, rfl⟩

/-- A `raise` answers its failure with `R = 0` and the block as it was. -/
theorem raise_answered {s : State} {b' : Block} {r' : Word} {st : Status} {f : Failure} :
    raise f s = .next (answered s st r' b') ↔ st = .fail f ∧ r' = 0 ∧ b' = s.blk := by
  rw [raise_eq, Host.Outcome.next.injEq, answered_inj]
  constructor <;> rintro ⟨rfl, rfl, rfl⟩ <;> exact ⟨rfl, rfl, rfl⟩

/-- Every command ends in a `return` or in a `raise`. -/
theorem exec_cases (i : Instr) (s : State) :
    (∃ b r, exec i s = respond s b r) ∨ (∃ f, exec i s = raise f s) := by
  cases i with
  | csrRd csr =>
    simp only [exec, execCsrRd]
    split
    · exact .inl ⟨_, _, rfl⟩
    · exact .inr ⟨_, rfl⟩
  | csrWr csr value =>
    simp only [exec, execCsrWr]
    split <;> first | exact .inl ⟨_, _, rfl⟩ | exact .inr ⟨_, rfl⟩
  | bwWrite width value =>
    simp only [exec, execBwWrite]
    repeat' split
    all_goals first | exact .inl ⟨_, _, rfl⟩ | exact .inr ⟨_, rfl⟩
  | bwFinish =>
    simp only [exec, execBwFinish]
    split <;> first | exact .inl ⟨_, _, rfl⟩ | exact .inr ⟨_, rfl⟩
  | brRead width =>
    simp only [exec, execBrRead]
    repeat' split
    all_goals first | exact .inl ⟨_, _, rfl⟩ | exact .inr ⟨_, rfl⟩
  | pduPushnack raw =>
    simp only [exec, execPduPushnack]
    split <;> first | exact .inl ⟨_, _, rfl⟩ | exact .inr ⟨_, rfl⟩
  | pduPopnack =>
    simp only [exec, execPduPopnack]
    split <;> exact .inl ⟨_, _, rfl⟩
  | pduDes =>
    simp only [exec, execPduDes]
    split <;> first | exact .inl ⟨_, _, rfl⟩ | exact .inr ⟨_, rfl⟩
  | hbAttach =>
    simp only [exec, execHbAttach]
    split <;> first | exact .inl ⟨_, _, rfl⟩ | exact .inr ⟨_, rfl⟩
  | hbDetach =>
    simp only [exec, execHbDetach]
    split <;> first | exact .inl ⟨_, _, rfl⟩ | exact .inr ⟨_, rfl⟩
  | bufClear space =>
    simp only [exec, execBufClear]
    split <;> first | exact .inl ⟨_, _, rfl⟩ | exact .inr ⟨_, rfl⟩
  | bufAppend space byte =>
    simp only [exec, execBufAppend, appendByte]
    repeat' split
    all_goals first | exact .inl ⟨_, _, rfl⟩ | exact .inr ⟨_, rfl⟩
  | bufLd space index =>
    simp only [exec, execBufLd]
    repeat' split
    all_goals first | exact .inl ⟨_, _, rfl⟩ | exact .inr ⟨_, rfl⟩
  | bufLen space =>
    simp only [exec, execBufLen]
    split <;> first | exact .inl ⟨_, _, rfl⟩ | exact .inr ⟨_, rfl⟩
  | _ => exact .inl ⟨_, _, rfl⟩

/-! ### The shared operations of the buffer commands -/

/-- Which spaces the host may read, and what it reads there. -/
theorem readableSpace_ok {b : Block} {sp : Space} {buf : List Byte} :
    readableSpace b sp = .ok buf ↔
      (sp = .txb ∧ b.wfin = true ∧ buf = pack b.wbits) ∨ (sp = .rxb ∧ buf = b.rxb) ∨
        (sp = .pkt ∧ buf = b.pkt) := by
  cases sp with
  | txb => cases h : b.wfin <;> simp [readableSpace, h, Block.txb, eq_comm (a := buf)]
  | _ => simp [readableSpace, eq_comm (a := buf)]

theorem readableSpace_error {b : Block} {sp : Space} {f : Failure} :
    readableSpace b sp = .error f ↔
      (sp = .txb ∧ b.wfin = false ∧ f = .illegalState) ∨
        ((∃ n, sp = .absent n) ∧ f = .illegalCommand) := by
  cases sp with
  | txb => cases h : b.wfin <;> simp [readableSpace, h, eq_comm (a := f)]
  | _ => simp [readableSpace, eq_comm (a := f)]

/-- What `BUF.APPEND` does on a space that the host may write. -/
theorem appendByte_cases (byte : Word) (len : Nat) (b : Block) (s : State) :
    (256 ≤ byte.toNat ∧ appendByte byte len b s = raise .fieldOverflow s) ∨
      (byte.toNat < 256 ∧ overCap s.params.bufCap (len + 1) = true ∧
        appendByte byte len b s = raise .capacityExceeded s) ∨
      (byte.toNat < 256 ∧ overCap s.params.bufCap (len + 1) = false ∧
        appendByte byte len b s = respond s b 0) := by
  unfold appendByte
  by_cases h : 256 ≤ byte.toNat
  · exact .inl ⟨h, if_pos ((byteOverflows_iff byte).mpr h)⟩
  · rw [if_neg (by rwa [byteOverflows_iff])]
    cases hc : overCap s.params.bufCap (len + 1) with
    | true => exact .inr (.inl ⟨by omega, rfl, if_pos rfl⟩)
    | false => exact .inr (.inr ⟨by omega, rfl, if_neg (by simp)⟩)

/-! ### Commands with several checks -/

/-- What `BW.WRITE` does, check by check (spec/41_bitstream_writer.md R92). -/
theorem execBwWrite_cases (w v : Word) (s : State) :
    (¬ (1 ≤ w.toNat ∧ w.toNat ≤ 32) ∧ execBwWrite w v s = raise .illegalCommand s) ∨
      (1 ≤ w.toNat ∧ w.toNat ≤ 32) ∧
        ((s.blk.wfin = true ∧ execBwWrite w v s = raise .illegalState s) ∨
          s.blk.wfin = false ∧
            ((2 ^ w.toNat ≤ v.toNat ∧ execBwWrite w v s = raise .fieldOverflow s) ∨
              v.toNat < 2 ^ w.toNat ∧
                ((overBitCap s.params.bufCap (s.blk.wpos + w.toNat) = true ∧
                    execBwWrite w v s = raise .capacityExceeded s) ∨
                  (overBitCap s.params.bufCap (s.blk.wpos + w.toNat) = false ∧
                    execBwWrite w v s = respond s (s.blk.appendBits v.toNat w.toNat) 0)))) := by
  unfold execBwWrite
  rw [← widthLegal_iff, ← fieldOverflows_iff, ← Nat.not_le, ← fieldOverflows_iff]
  cases widthLegal w <;> cases s.blk.wfin <;> cases fieldOverflows w v <;>
    cases overBitCap s.params.bufCap (s.blk.wpos + w.toNat) <;> simp

/-- What `BR.READ` does, check by check (spec/42_bitstream_reader.md R102). -/
theorem execBrRead_cases (w : Word) (s : State) :
    (¬ (1 ≤ w.toNat ∧ w.toNat ≤ 32) ∧ execBrRead w s = raise .illegalCommand s) ∨
      (1 ≤ w.toNat ∧ w.toNat ≤ 32) ∧
        ((8 * s.blk.rxb.length < s.blk.rpos + w.toNat ∧ execBrRead w s = raise .truncatedInput s) ∨
          (s.blk.rpos + w.toNat ≤ 8 * s.blk.rxb.length ∧
            execBrRead w s = respond s { s.blk with rpos := s.blk.rpos + w.toNat }
              (BitVec.ofNat 32 (field s.blk.rxb s.blk.rpos w.toNat)))) := by
  unfold execBrRead
  rw [← widthLegal_iff]
  by_cases h : s.blk.rpos + w.toNat > 8 * s.blk.rxb.length <;> (cases widthLegal w <;> simp [h])
  all_goals omega

/-! ### Runs -/

@[simp] theorem run_zero (s : State) : Sys2Proof.core.run 0 s = .next s := rfl

/-- A run goes on from the state that its first step gives. -/
theorem run_succ {s s' : State} (n : Nat) (h : step s = .next s') :
    Sys2Proof.core.run (n + 1) s = Sys2Proof.core.run n s' := by
  have : Sys2Proof.core.step s = .next s' := h
  simp only [Host.Core.run, this]

/-! ### Capacities, in the terms of the statements -/

theorem overCap_eq_false {cap : Option Nat} {n : Nat} :
    overCap cap n = false ↔ ∀ c ∈ cap, n ≤ c := by
  cases cap <;> simp

theorem overCap_eq_true {cap : Option Nat} {n : Nat} : overCap cap n = true ↔ ∃ c ∈ cap, c < n := by
  cases cap <;> simp

theorem overBitCap_eq_false {cap : Option Nat} {n : Nat} :
    overBitCap cap n = false ↔ ∀ c ∈ cap, n ≤ 8 * c := by
  cases cap <;> simp

theorem overBitCap_eq_true {cap : Option Nat} {n : Nat} :
    overBitCap cap n = true ↔ ∃ c ∈ cap, 8 * c < n := by
  cases cap <;> simp

end Sys2Proof.Machine
end

