-- ==== Sys2Proof/Laws/Memory.lean ====
section
/-! SUPPORT. Every operation on the three buffers keeps `Memory.wf`, under the check its command makes
first, and the reset block has it. -/

namespace Sys2Proof.Machine

theorem Memory.wf_iff {p : Params} {b : Block} :
    Memory.wf p b = true ↔
      overBitCap p.bufCap b.wbits.length = false ∧ overCap p.bufCap b.rxb.length = false ∧
        overCap p.bufCap b.pkt.length = false := by
  simp [Memory.wf, Block.wpos, and_assoc]

theorem Memory.reset_wf (p : Params) : Memory.wf p Block.reset = true := by
  cases p with
  | mk n c => cases c <;> simp [Memory.wf_iff, Block.reset]

section

variable {p : Params} {b : Block} (h : Memory.wf p b = true)

include h

theorem Memory.clearRxb_wf : Memory.wf p b.clearRxb = true := by
  rw [Memory.wf_iff] at h ⊢
  exact ⟨h.1, overCap_mono h.2.1 (by simp), h.2.2⟩

theorem Memory.clearPkt_wf : Memory.wf p b.clearPkt = true := by
  rw [Memory.wf_iff] at h ⊢
  exact ⟨h.1, h.2.1, overCap_mono h.2.2 (by simp)⟩

theorem Memory.appendRxb_wf (x : Byte) (hc : overCap p.bufCap (b.rxb.length + 1) = false) :
    Memory.wf p (b.appendRxb x) = true := by
  rw [Memory.wf_iff] at h ⊢
  exact ⟨h.1, by simpa using hc, h.2.2⟩

theorem Memory.appendPkt_wf (x : Byte) (hc : overCap p.bufCap (b.pkt.length + 1) = false) :
    Memory.wf p (b.appendPkt x) = true := by
  rw [Memory.wf_iff] at h ⊢
  exact ⟨h.1, h.2.1, by simpa using hc⟩

theorem Memory.prependPkt_wf (hd : List Byte)
    (hc : overCap p.bufCap (hd.length + b.pkt.length) = false) :
    Memory.wf p (b.prependPkt hd) = true := by
  rw [Memory.wf_iff] at h ⊢
  exact ⟨h.1, h.2.1, by simpa using hc⟩

theorem Memory.dropPkt_wf (n : Nat) : Memory.wf p (b.dropPkt n) = true := by
  rw [Memory.wf_iff] at h ⊢
  exact ⟨h.1, h.2.1, overCap_mono h.2.2 (by simp)⟩

theorem Memory.bindReader_wf (buf : List Byte) (q : Nat) (hc : overCap p.bufCap buf.length = false) :
    Memory.wf p (b.bindReader buf q) = true := by
  rw [Memory.wf_iff] at h ⊢
  exact ⟨h.1, hc, h.2.2⟩

theorem Memory.setPdu_wf (ack : Residue) (nacks : List Residue) :
    Memory.wf p (b.setPdu ack nacks) = true := by
  rw [Memory.wf_iff] at h ⊢
  exact h

theorem Memory.appendBits_wf (v w : Nat) (hc : overBitCap p.bufCap (b.wpos + w) = false) :
    Memory.wf p (b.appendBits v w) = true := by
  rw [Memory.wf_iff] at h ⊢
  exact ⟨by simpa [Block.wpos] using hc, h.2.1, h.2.2⟩

theorem Memory.loadWriter_wf (bits : List Bool) (hc : overBitCap p.bufCap bits.length = false) :
    Memory.wf p (b.loadWriter bits) = true := by
  rw [Memory.wf_iff] at h ⊢
  exact ⟨hc, h.2.1, h.2.2⟩

end

/-- The first constraint on `BUF_CAP` makes `PDU.SER` total (spec/00_scope.md R6): an encoded queue within
`NACK_CAP` fits. -/
theorem serBits_fits {p : Params} (hp : p.legal = true) (ack : Residue) {nacks : List Residue}
    (hn : overCap p.nackCap nacks.length = false) :
    overBitCap p.bufCap (serBits ack nacks).length = false := by
  obtain ⟨n, c⟩ := p
  rw [overBitCap_eq]
  cases n <;> cases c <;> simp_all [Params.legal, bytesFor, pduBits_eq]
  omega

end Sys2Proof.Machine
end

