-- ==== Sys2Proof/Laws/PerInstr.lean ====
section
/-! SUPPORT. The family of statements made for each command: the word it assembles to holds its opcode
and its two operands in their fields (spec/30_encoding.md R70, R74). -/

namespace Sys2Proof.Laws.Fields

/-- The fields of the encoded word are the command's opcode and operands. -/
def Statement (i : Instr) : Prop :=
  opField (encode i) = i.opcode ∧ aField (encode i) = i.operandA ∧ bField (encode i) = i.operandB

theorem of_encode (i : Instr) : Statement i := by simp [Statement, encode]

theorem sysReset : Statement .sysReset := of_encode _

theorem csrRd (csr : Csr) : Statement (.csrRd csr) := of_encode _

theorem csrWr (csr : Csr) (value : Word) : Statement (.csrWr csr value) := of_encode _

theorem snCreate (raw : Word) : Statement (.snCreate raw) := of_encode _

theorem snAdd (a : Word) (delta : Word) : Statement (.snAdd a delta) := of_encode _

theorem snSub (a : Word) (delta : Word) : Statement (.snSub a delta) := of_encode _

theorem snCmp (a : Word) (b : Word) : Statement (.snCmp a b) := of_encode _

theorem bwReset : Statement .bwReset := of_encode _

theorem bwWrite (width : Word) (value : Word) : Statement (.bwWrite width value) := of_encode _

theorem bwFinish : Statement .bwFinish := of_encode _

theorem brReset : Statement .brReset := of_encode _

theorem brRead (width : Word) : Statement (.brRead width) := of_encode _

theorem brRemain : Statement .brRemain := of_encode _

theorem pduClear : Statement .pduClear := of_encode _

theorem pduSetack (raw : Word) : Statement (.pduSetack raw) := of_encode _

theorem pduPushnack (raw : Word) : Statement (.pduPushnack raw) := of_encode _

theorem pduGetack : Statement .pduGetack := of_encode _

theorem pduPopnack : Statement .pduPopnack := of_encode _

theorem pduSer : Statement .pduSer := of_encode _

theorem pduDes : Statement .pduDes := of_encode _

theorem hbAttach : Statement .hbAttach := of_encode _

theorem hbDetach : Statement .hbDetach := of_encode _

theorem bufClear (space : Space) : Statement (.bufClear space) := of_encode _

theorem bufAppend (space : Space) (byte : Word) : Statement (.bufAppend space byte) := of_encode _

theorem bufLd (space : Space) (index : Word) : Statement (.bufLd space index) := of_encode _

theorem bufLen (space : Space) : Statement (.bufLen space) := of_encode _

end Sys2Proof.Laws.Fields
end

