-- ==== Sys2Proof/Machine/Assembly.lean ====
section
/-! DEFINITION. The assembler syntax of spec/30_encoding.md R74: one line of text gives one command word.
It is the document's notation for command words and no part of the block: no step uses it. What R74
leaves open is in notes/assumptions/13.md. -/

namespace Sys2Proof.Machine

/-- What an operand of a line may be: a number, or also the name of a CSR or of a buffer space. -/
inductive OperandText where
  | number
  | csr
  | space
deriving DecidableEq, Repr

/-- A command as R74 writes it: its mnemonic, and which of `A` and `B` it uses. -/
structure LineForm where
  mnemonic : String
  op : Opcode
  a : Option OperandText
  b : Option OperandText
deriving DecidableEq, Repr

/-- Mnemonics and operands of R71's table, down to the reader. -/
def lineFormsFirst : List LineForm :=
  [⟨"SYS.RESET", 0x01, none, none⟩, ⟨"CSR.RD", 0x02, some .csr, none⟩,
   ⟨"CSR.WR", 0x03, some .csr, some .number⟩, ⟨"SN.CREATE", 0x10, none, some .number⟩,
   ⟨"SN.ADD", 0x11, some .number, some .number⟩, ⟨"SN.SUB", 0x12, some .number, some .number⟩,
   ⟨"SN.CMP", 0x13, some .number, some .number⟩, ⟨"BW.RESET", 0x20, none, none⟩,
   ⟨"BW.WRITE", 0x21, some .number, some .number⟩, ⟨"BW.FINISH", 0x22, none, none⟩,
   ⟨"BR.RESET", 0x30, none, none⟩, ⟨"BR.READ", 0x31, some .number, none⟩,
   ⟨"BR.REMAIN", 0x32, none, none⟩]

/-- The rest of R71's table. -/
def lineFormsLast : List LineForm :=
  [⟨"PDU.CLEAR", 0x40, none, none⟩, ⟨"PDU.SETACK", 0x41, none, some .number⟩,
   ⟨"PDU.PUSHNACK", 0x42, none, some .number⟩, ⟨"PDU.GETACK", 0x43, none, none⟩,
   ⟨"PDU.POPNACK", 0x44, none, none⟩, ⟨"PDU.SER", 0x45, none, none⟩, ⟨"PDU.DES", 0x46, none, none⟩,
   ⟨"HB.ATTACH", 0x50, none, none⟩, ⟨"HB.DETACH", 0x51, none, none⟩,
   ⟨"BUF.CLEAR", 0x60, some .space, none⟩, ⟨"BUF.APPEND", 0x61, some .space, some .number⟩,
   ⟨"BUF.LD", 0x62, some .space, some .number⟩, ⟨"BUF.LEN", 0x63, some .space, none⟩]

/-- A character that separates and stands for nothing. -/
def isBlank (c : Char) : Bool := c == ' ' || c == '\t'

/-- The text without blanks at either end. -/
def trimBlanks (cs : List Char) : List Char :=
  ((cs.dropWhile isBlank).reverse.dropWhile isBlank).reverse

/-- The pieces between commas. -/
def splitCommas : List Char → List (List Char)
  | [] => [[]]
  | c :: cs =>
    if c == ',' then [] :: splitCommas cs
    else
      match splitCommas cs with
      | [] => [[c]]
      | w :: ws => (c :: w) :: ws

/-- The value of a digit, hexadecimal letters included. -/
def digitValue (c : Char) : Option Nat :=
  if '0' ≤ c ∧ c ≤ '9' then some (c.toNat - 48)
  else if 'A' ≤ c ∧ c ≤ 'F' then some (c.toNat - 55)
  else if 'a' ≤ c ∧ c ≤ 'f' then some (c.toNat - 87)
  else none

/-- The number that a non-empty run of digits writes in a base, after `acc`. -/
def digitsValue (base acc : Nat) : List Char → Option Nat
  | [] => some acc
  | c :: cs =>
    match digitValue c with
    | none => none
    | some d => if d < base then digitsValue base (base * acc + d) cs else none

/-- An operand word: decimal, or hexadecimal after `0x`. -/
def numberWord (cs : List Char) : Option Word :=
  let value :=
    match cs with
    | [] => none
    | ['0', 'x'] => none
    | '0' :: 'x' :: ds => digitsValue 16 0 ds
    | ds => digitsValue 10 0 ds
  match value with
  | none => none
  | some n => if n < 2 ^ 32 then some (BitVec.ofNat 32 n) else none

/-- A CSR by name or by number. -/
def csrWord (cs : List Char) : Option Word :=
  if cs = "SNBASE".toList then some 0
  else if cs = "STATUS".toList then some 1
  else if cs = "WPOS".toList then some 2
  else if cs = "RPOS".toList then some 3
  else numberWord cs

/-- A buffer space by name or by number. -/
def spaceWord (cs : List Char) : Option Word :=
  if cs = "TXB".toList then some 0
  else if cs = "RXB".toList then some 1
  else if cs = "PKT".toList then some 2
  else numberWord cs

/-- The word of an operand of a given kind. -/
def operandWord : OperandText → List Char → Option Word
  | .number, cs => numberWord cs
  | .csr, cs => csrWord cs
  | .space, cs => spaceWord cs

/-- The word of a line of a form with its operands; an ignored operand assembles to 0. -/
def LineForm.word (f : LineForm) (operands : List (List Char)) : Option CommandWord :=
  match f.a, f.b, operands with
  | none, none, [] => some (commandWord f.op 0 0)
  | some k, none, [x] => (operandWord k x).map fun a => commandWord f.op a 0
  | none, some k, [x] => (operandWord k x).map fun b => commandWord f.op 0 b
  | some k, some l, [x, y] =>
    match operandWord k x, operandWord l y with
    | some a, some b => some (commandWord f.op a b)
    | _, _ => none
  | _, _, _ => none

/-- The command word of a line, `none` for a line that is no command; a comment runs from `;` to the end. -/
def assemble (line : String) : Option CommandWord :=
  let text := trimBlanks (line.toList.takeWhile fun c => c != ';')
  let mnemonic := text.takeWhile fun c => !isBlank c
  let rest := trimBlanks (text.dropWhile fun c => !isBlank c)
  let operands := if rest.isEmpty then [] else (splitCommas rest).map trimBlanks
  match (lineFormsFirst ++ lineFormsLast).find? fun f => decide (f.mnemonic.toList = mnemonic) with
  | none => none
  | some f => f.word operands

end Sys2Proof.Machine
end

