-- ==== Sys2Proof/Tests/Slice0.lean ====
section
/-! SUPPORT. The model's own tests and the witnesses of its statements. Every expected value comes from
the spec: the worked encodings of spec/30_encoding.md R76 and the vectors of spec/95_test_vectors.md,
named by their section or id, or a hand calculation from the rule named. -/

namespace Sys2Proof.Tests

open Sys2Proof.Machine Sys2Proof.Safety

/-! ### Small states and what a step shows -/

/-- The machine with a given block, both capacities infinite, nothing issued and nothing answered. -/
def machine (b : Block) : State := { State.reset with blk := b }

/-- The same with `NACK_CAP = 2` and `BUF_CAP = 6`, the parameters of program P6. -/
def small (b : Block) : State := { machine b with params := { nackCap := some 2, bufCap := some 6 } }

/-- The block and the responses after a step. -/
def seen : Host.Outcome State Fault Refusal → Option (Block × List Response)
  | .next s => some (s.blk, s.responses)
  | .fault _ => none
  | .refused _ => none

/-- The block and the responses after the word `cw` is issued and one step is taken. -/
def after (cw : Nat) (s : State) : Option (Block × List Response) := seen (step (s.withFetchWord 72 cw))

/-- One command answered `OK` with `r`, leaving the block `b`. -/
def ok (r : Word) (b : Block) : Option (Block × List Response) := some (b, [{ st := .ok, r := r }])

/-- One command answered with the failure `f`, leaving the block `b`. -/
def failed (f : Failure) (b : Block) : Option (Block × List Response) :=
  some (b, [{ st := .fail f, r := 0 }])

/-- A block with every item away from its reset value: `TXB = 80`, and the PDU of W5. -/
def busy : Block :=
  { snbase := 1000, wbits := [true], wfin := true, rxb := [0xDE, 0xAD, 0xBE, 0xEF, 0x80], rpos := 32
    pkt := [0xAB, 0xCD], ack := 5, nackq := [3, 1023] }

/-! ### Well-formedness: each check refuses an ill-formed term -/

theorem test_illformed_csrRd : (Instr.csrRd (.absent 3)).wellFormed = false := by decide
theorem test_illformed_csrWr : (Instr.csrWr (.absent 0) 7).wellFormed = false := by decide
theorem test_illformed_bufClear : (Instr.bufClear (.absent 2)).wellFormed = false := by decide
theorem test_illformed_bufAppend : (Instr.bufAppend (.absent 1) 7).wellFormed = false := by decide
theorem test_illformed_bufLd : (Instr.bufLd (.absent 0) 7).wellFormed = false := by decide
theorem test_illformed_bufLen : (Instr.bufLen (.absent 2)).wellFormed = false := by decide
theorem test_wellformed_boundary :
    (Instr.csrRd (.absent 4)).wellFormed = true ∧ (Instr.bufLd (.absent 3) 0).wellFormed = true ∧
      (Instr.bwWrite 33 0).wellFormed = true := by decide

/-! ### Decoding: one word for each constructor (R76, R71), and one a family in bits -/

theorem test_decode_system :
    decodeTableWord 72 0x010000000000000000 = some .sysReset ∧
    decodeTableWord 72 0x020000000300000000 = some (.csrRd .rpos) ∧
    decodeTableWord 72 0x0300000000000003E8 = some (.csrWr .snbase 1000) := by decide

theorem test_decode_sequence_number :
    decodeTableWord 72 0x100000000000000406 = some (.snCreate 1030) ∧
    decodeTableWord 72 0x11000003FC0000000A = some (.snAdd 1020 10) ∧
    decodeTableWord 72 0x120000000000000001 = some (.snSub 0 1) ∧
    decodeTableWord 72 0x13000003FC00000006 = some (.snCmp 1020 6) := by decide

theorem test_decode_writer_reader :
    decodeTableWord 72 0x200000000000000000 = some .bwReset ∧
    decodeTableWord 72 0x210000000A00000008 = some (.bwWrite 10 8) ∧
    decodeTableWord 72 0x220000000000000000 = some .bwFinish ∧
    decodeTableWord 72 0x300000000000000000 = some .brReset ∧
    decodeTableWord 72 0x310000000A00000000 = some (.brRead 10) ∧
    decodeTableWord 72 0x320000000000000000 = some .brRemain := by decide

theorem test_decode_pdu :
    decodeTableWord 72 0x400000000000000000 = some .pduClear ∧
    decodeTableWord 72 0x410000000000000005 = some (.pduSetack 5) ∧
    decodeTableWord 72 0x4200000000000003FF = some (.pduPushnack 1023) ∧
    decodeTableWord 72 0x430000000000000000 = some .pduGetack ∧
    decodeTableWord 72 0x440000000000000000 = some .pduPopnack ∧
    decodeTableWord 72 0x450000000000000000 = some .pduSer ∧
    decodeTableWord 72 0x460000000000000000 = some .pduDes := by decide

theorem test_decode_adapter_and_buffers :
    decodeTableWord 72 0x500000000000000000 = some .hbAttach ∧
    decodeTableWord 72 0x510000000000000000 = some .hbDetach ∧
    decodeTableWord 72 0x600000000100000000 = some (.bufClear .rxb) ∧
    decodeTableWord 72 0x6100000002000000AB = some (.bufAppend .pkt 0xAB) ∧
    decodeTableWord 72 0x620000000000000001 = some (.bufLd .txb 1) ∧
    decodeTableWord 72 0x630000000200000000 = some (.bufLen .pkt) := by decide

/-- Selector numbers that select nothing are kept (2.8: `CSR.RD 4`, `BUF.CLEAR 3`). -/
theorem test_decode_absent_selectors :
    decodeTableWord 72 0x020000000400000000 = some (.csrRd (.absent 4)) ∧
    decodeTableWord 72 0x600000000300000000 = some (.bufClear (.absent 3)) := by decide

/-- Ignored operands are don't-cares (2.1 `SN.CREATE 5` with `A = 0xDEADBEEF`; 2.8 `SYS.RESET`). -/
theorem test_decode_ignored_operands :
    decodeTableWord 72 0x10DEADBEEF00000005 = some (.snCreate 5) ∧
    decodeTableWord 72 0x01FFFFFFFFFFFFFFFF = some .sysReset := by decide

/-- The reserved words of 2.9. -/
theorem test_decode_reserved :
    ∀ w ∈ ([0x000000000000000000, 0x040000007B000001C8, 0x0F0000000000000000, 0x140000000000000000,
      0x230000000000000000, 0x330000000000000000, 0x470000000000000000, 0x520000000000000000,
      0x640000000000000000, 0xFFFFFFFFFFFFFFFFFF] : List Nat), decodeTableWord 72 w = none := by decide

/-- One word a family, `OP`, `A`, `B` in bits: `CSR.WR SNBASE, 1000`, `SN.ADD 1020, 10`, `BW.WRITE 10, 8`,
`BR.READ 10`. -/
theorem test_decode_bits_first :
    decode (0b00000011#8 ++ 0b00000000000000000000000000000000#32 ++
      0b00000000000000000000001111101000#32) = .ok (.csrWr .snbase 1000) ∧
    decode (0b00010001#8 ++ 0b00000000000000000000001111111100#32 ++
      0b00000000000000000000000000001010#32) = .ok (.snAdd 1020 10) ∧
    decode (0b00100001#8 ++ 0b00000000000000000000000000001010#32 ++
      0b00000000000000000000000000001000#32) = .ok (.bwWrite 10 8) ∧
    decode (0b00110001#8 ++ 0b00000000000000000000000000001010#32 ++
      0b00000000000000000000000000000000#32) = .ok (.brRead 10) := ⟨rfl, rfl, rfl, rfl⟩

/-- The same for `PDU.SETACK 5`, `HB.DETACH`, `BUF.APPEND PKT, 0xAB`, `SYS.RESET`. -/
theorem test_decode_bits_last :
    decode (0b01000001#8 ++ 0b00000000000000000000000000000000#32 ++
      0b00000000000000000000000000000101#32) = .ok (.pduSetack 5) ∧
    decode (0b01010001#8 ++ 0b00000000000000000000000000000000#32 ++
      0b00000000000000000000000000000000#32) = .ok .hbDetach ∧
    decode (0b01100001#8 ++ 0b00000000000000000000000000000010#32 ++
      0b00000000000000000000000010101011#32) = .ok (.bufAppend .pkt 0xAB) ∧
    decode (0b00000001#8 ++ 0b00000000000000000000000000000000#32 ++
      0b00000000000000000000000000000000#32) = .ok .sysReset := ⟨rfl, rfl, rfl, rfl⟩

/-- Assembling gives the words of R76. -/
theorem test_encode_words :
    encode (.csrWr .snbase 1000) = 0x0300000000000003E8 ∧
    encode (.snCmp 1020 6) = 0x13000003FC00000006 ∧
    encode (.bwWrite 10 8) = 0x210000000A00000008 ∧ encode (.brRead 10) = 0x310000000A00000000 ∧
    encode (.pduPushnack 1023) = 0x4200000000000003FF ∧
    encode (.bufAppend .pkt 0xAB) = 0x6100000002000000AB := by decide

/-- The assembly lines of R76, first half. -/
theorem test_assemble_first :
    ∀ p ∈ ([("SYS.RESET", 0x010000000000000000), ("CSR.RD SNBASE", 0x020000000000000000),
      ("CSR.RD RPOS", 0x020000000300000000), ("CSR.WR SNBASE, 1000", 0x0300000000000003E8),
      ("SN.CREATE 1030", 0x100000000000000406), ("SN.ADD 1020, 10", 0x11000003FC0000000A),
      ("SN.SUB 0, 1", 0x120000000000000001), ("SN.CMP 1020, 6", 0x13000003FC00000006),
      ("BW.RESET", 0x200000000000000000), ("BW.WRITE 10, 8", 0x210000000A00000008),
      ("BW.FINISH", 0x220000000000000000), ("BR.RESET", 0x300000000000000000),
      ("BR.READ 10", 0x310000000A00000000), ("BR.REMAIN", 0x320000000000000000)] :
        List (String × CommandWord)), assemble p.1 = some p.2 := by decide +kernel

/-- The assembly lines of R76, second half; R74's comment; a line with an operand too many. -/
theorem test_assemble_last :
    (∀ p ∈ ([("PDU.CLEAR", 0x400000000000000000), ("PDU.SETACK 5", 0x410000000000000005),
      ("PDU.PUSHNACK 1023", 0x4200000000000003FF), ("PDU.GETACK", 0x430000000000000000),
      ("PDU.POPNACK", 0x440000000000000000), ("PDU.SER", 0x450000000000000000),
      ("PDU.DES", 0x460000000000000000), ("HB.ATTACH", 0x500000000000000000),
      ("HB.DETACH", 0x510000000000000000), ("BUF.CLEAR RXB", 0x600000000100000000),
      ("BUF.APPEND PKT, 0xAB", 0x6100000002000000AB), ("BUF.LD TXB, 1", 0x620000000000000001),
      ("BUF.LEN PKT  ; in bytes", 0x630000000200000000)] : List (String × CommandWord)),
      assemble p.1 = some p.2) ∧
    assemble "PDU.SER 1" = none := by decide +kernel

/-! ### One step of each command (vectors of spec/95_test_vectors.md) -/

/-- 2.8, operands ignored. -/
theorem test_sysReset : after 0x01FFFFFFFFFFFFFFFF (machine busy) = ok 0 Block.reset := by decide
/-- P1 step 8. -/
theorem test_csrRd_snbase : after 0x020000000000000000 (machine busy) = ok 1000 busy := by decide
/-- 2.8 `CSR.RD 0xFFFFFFFF`. -/
theorem test_csrRd_absent : after 0x02FFFFFFFF00000000 (machine busy) = failed .illegalCommand busy := by
  decide
/-- 2.8 `CSR.WR SNBASE, 0xFFFFFFFF`. -/
theorem test_csrWr_snbase :
    after 0x0300000000FFFFFFFF (machine busy) = ok 0 { busy with snbase := 1023 } := by decide
/-- 2.8 `CSR.WR STATUS, 0` with `WFIN = 1`. -/
theorem test_csrWr_status : after 0x030000000100000000 (machine busy) = failed .illegalCommand busy := by
  decide
/-- 2.1 `SN.CREATE 0xFFFFFFFF`. -/
theorem test_snCreate : after 0x1000000000FFFFFFFF (machine busy) = ok 1023 busy := by decide
/-- 2.1 `SN.ADD 2000, 100` and `SN.ADD 0, 0xFFFFFFFF`. -/
theorem test_snAdd : after 0x11000007D000000064 (machine busy) = ok 52 busy ∧
    after 0x1100000000FFFFFFFF (machine busy) = ok 1023 busy := by decide
/-- 2.1 `SN.SUB 6, 10` and `SN.SUB 0, 0xFFFFFFFF`. -/
theorem test_snSub : after 0x12000000060000000A (machine busy) = ok 1020 busy ∧
    after 0x1200000000FFFFFFFF (machine busy) = ok 1 busy := by decide
/-- 2.1, base 1000: `1020, 6` is LT, `999, 1000` is GT; P1 step 12: `1030, 6` is EQ. -/
theorem test_snCmp : after 0x13000003FC00000006 (machine busy) = ok 1 busy ∧
    after 0x13000003E7000003E8 (machine busy) = ok 4 busy ∧
    after 0x130000040600000006 (machine busy) = ok 2 busy := by decide
/-- 2.1, base 0: `1020, 6` is GT (P1 step 6). -/
theorem test_snCmp_base0 : after 0x13000003FC00000006 (machine Block.reset) = ok 4 Block.reset := by decide
/-- 2.2 `BW.RESET`. -/
theorem test_bwReset :
    after 0x200000000000000000 (machine busy) = ok 0 { busy with wbits := [], wfin := false } := by decide
/-- 2.2: `3:5` appends `101`; R22. -/
theorem test_bwWrite : after 0x210000000300000005 (machine { Block.reset with wbits := [false] }) =
    ok 0 { Block.reset with wbits := [false, true, false, true] } := by decide
/-- 2.2, the order of the checks (R164). -/
theorem test_bwWrite_checks :
    after 0x210000000000000000 (machine busy) = failed .illegalCommand busy ∧
    after 0x210000000300000008 (machine busy) = failed .illegalState busy ∧
    after 0x210000000300000008 (machine Block.reset) = failed .fieldOverflow Block.reset ∧
    after 0x210000002100000000 (machine Block.reset) = failed .illegalCommand Block.reset := by decide
/-- 2.2: nine bits give two bytes. -/
theorem test_bwFinish :
    after 0x220000000000000000 (machine { Block.reset with wbits := List.replicate 9 true }) =
      ok 2 { Block.reset with wbits := List.replicate 9 true, wfin := true } := by decide
/-- 2.2 `BW.FINISH` with `WFIN = 1`. -/
theorem test_bwFinish_twice : after 0x220000000000000000 (machine busy) = failed .illegalState busy := by
  decide
/-- 2.3 `BR.RESET`. -/
theorem test_brReset : after 0x300000000000000000 (machine busy) = ok 0 { busy with rpos := 0 } := by decide
/-- 2.3: `A5 5A`, `BR.READ 7` from bit 3 gives 21 across the byte boundary. -/
theorem test_brRead :
    after 0x310000000700000000 (machine { Block.reset with rxb := [0xA5, 0x5A], rpos := 3 }) =
      ok 21 { Block.reset with rxb := [0xA5, 0x5A], rpos := 10 } := by decide
/-- 2.3: `BR.READ 32` at 0 gives `0xDEADBEEF`; with 7 bits left `BR.READ 8` consumes nothing. -/
theorem test_brRead_ends :
    after 0x310000002000000000 (machine { busy with rpos := 0 }) = ok 0xDEADBEEF busy ∧
    after 0x310000000800000000 (machine { busy with rpos := 33 }) =
      failed .truncatedInput { busy with rpos := 33 } := by decide
/-- 2.3 `BR.REMAIN` at 32. -/
theorem test_brRemain : after 0x320000000000000000 (machine busy) = ok 8 busy := by decide
/-- 2.6 `PDU.CLEAR`. -/
theorem test_pduClear :
    after 0x400000000000000000 (machine busy) = ok 0 { busy with ack := 0, nackq := [] } := by decide
/-- 2.6 `PDU.SETACK 1030`. -/
theorem test_pduSetack : after 0x410000000000000406 (machine busy) = ok 0 { busy with ack := 6 } := by decide
/-- 2.6 `PDU.PUSHNACK 2047` at the tail. -/
theorem test_pduPushnack :
    after 0x4200000000000007FF (machine busy) = ok 0 { busy with nackq := [3, 1023, 1023] } := by decide
/-- P6 step 4. -/
theorem test_pduPushnack_full :
    after 0x420000000000000003 (small busy) = failed .capacityExceeded busy := by decide
/-- P3 step 22. -/
theorem test_pduGetack : after 0x430000000000000000 (machine busy) = ok 5 busy := by decide
/-- P3 steps 23 and 25. -/
theorem test_pduPopnack :
    after 0x440000000000000000 (machine busy) = ok 3 { busy with nackq := [1023] } ∧
    after 0x440000000000000000 (machine Block.reset) = ok 0xFFFFFFFF Block.reset := by decide
/-- W5, bit by bit, over a finished writer. -/
theorem test_pduSer :
    after 0x450000000000000000 (machine busy) = ok 5 { busy with
      wbits := [false, false, false, false, false, false, false, false, false, false, false, true,
        false, true, true, false, false, false, false, false, false, false, false, true, true, true,
        true, true, true, true, true, true, true, true, true, true, false] } := by decide
/-- W3, W5 and W9 in bytes. -/
theorem test_ser_bytes :
    ser 1023 [] = [0x0F, 0xFC] ∧ ser 5 [3, 1023] = [0x00, 0x16, 0x01, 0xFF, 0xF0] ∧
    ser 1023 [1023, 1023, 1023] = [0x0F, 0xFF, 0xFF, 0xFF, 0xFF, 0xFE] := by decide
/-- X7: padding bits 1; `RPOS` beforehand is ignored. -/
theorem test_pduDes :
    after 0x460000000000000000 (machine { busy with rxb := [0x00, 0x16, 0x01, 0xFF, 0xF7], rpos := 7
                                                    ack := 0, nackq := [9] }) =
      ok 5 { busy with rxb := [0x00, 0x16, 0x01, 0xFF, 0xF7], rpos := 40 } := by decide
/-- X14, X15, X19, X23 and, with `NACK_CAP = 2`, X26, X27. -/
theorem test_des_failures :
    des none [0x80] = .error .truncatedInput ∧ des none [0x10, 0x00] = .error .invalidHeader ∧
    des none [0x00, 0x22] = .error .truncatedInput ∧
    des none [0x00, 0x16, 0x01, 0xFF] = .error .truncatedInput ∧
    des (some 2) [0x0F, 0xFF, 0xFF, 0xFF, 0xFF, 0xFE] = .error .capacityExceeded ∧
    des (some 2) [0x0F, 0xFF, 0xFF, 0xFF, 0xFF] = .error .truncatedInput :=
  ⟨rfl, rfl, rfl, rfl, rfl, rfl⟩
/-- H1 (`WPOS = 15`), from a block with other contents. -/
theorem test_hbAttach :
    after 0x500000000000000000 (machine { busy with ack := 8, nackq := [] }) =
      ok 2 { busy with
        ack := 8, nackq := [], pkt := [0x00, 0x20, 0xAB, 0xCD]
        wbits := [false, false, false, false, false, false, false, false, false, false, true, false, false,
          false, false] } := by decide
/-- H10. -/
theorem test_hbAttach_full :
    after 0x500000000000000000 (small { Block.reset with nackq := [1, 2], pkt := [1, 2, 3] }) =
      failed .capacityExceeded { Block.reset with nackq := [1, 2], pkt := [1, 2, 3] } := by decide
/-- H8. -/
theorem test_hbDetach :
    after 0x510000000000000000 (machine { Block.reset with pkt := [0x00, 0x16, 0x01, 0xFF, 0xF7, 0xAB] }) =
      ok 5 { Block.reset with
        rxb := [0x00, 0x16, 0x01, 0xFF, 0xF7, 0xAB], rpos := 40, ack := 5, nackq := [3, 1023]
        pkt := [0xAB] } := by decide
/-- H5. -/
theorem test_hbDetach_header : after 0x510000000000000000 (machine busy) = failed .invalidHeader busy := by
  decide
/-- 2.8 `BUF.CLEAR RXB`, `BUF.CLEAR TXB`. -/
theorem test_bufClear :
    after 0x600000000100000000 (machine busy) = ok 0 { busy with rxb := [], rpos := 0 } ∧
    after 0x600000000000000000 (machine busy) = failed .illegalCommand busy := by decide
/-- 2.8 `BUF.APPEND RXB, 255`, `RPOS` unchanged. -/
theorem test_bufAppend : after 0x6100000001000000FF (machine busy) =
    ok 0 { busy with rxb := [0xDE, 0xAD, 0xBE, 0xEF, 0x80, 0xFF] } := by decide
/-- 2.8, the order of the checks. -/
theorem test_bufAppend_checks :
    after 0x610000000300000100 (machine busy) = failed .illegalCommand busy ∧
    after 0x610000000100000100 (machine busy) = failed .fieldOverflow busy ∧
    after 0x610000000100000000 (small { busy with rxb := [1, 2, 3, 4, 5, 6] }) =
      failed .capacityExceeded { busy with rxb := [1, 2, 3, 4, 5, 6] } := by decide
/-- 2.2: the bit `1` packs to `80`; R145. -/
theorem test_bufLd : after 0x620000000000000000 (machine busy) = ok 0x80 busy ∧
    after 0x620000000200000001 (machine busy) = ok 0xCD busy := by decide
/-- 2.8. -/
theorem test_bufLd_checks :
    after 0x620000000000000001 (machine busy) = failed .indexOutOfRange busy ∧
    after 0x620000000000000000 (machine Block.reset) = failed .illegalState Block.reset ∧
    after 0x620000000300000000 (machine busy) = failed .illegalCommand busy := by decide
/-- 2.8: a finished empty writer has length 0; R146. -/
theorem test_bufLen :
    after 0x630000000000000000 (machine { Block.reset with wfin := true }) =
      ok 0 { Block.reset with wfin := true } ∧
    after 0x630000000100000000 (machine busy) = ok 5 busy := by decide
/-- 2.8. -/
theorem test_bufLen_open :
    after 0x630000000000000000 (machine Block.reset) = failed .illegalState Block.reset := by decide
/-- 2.9: a reserved word answers `IllegalCommand` and changes nothing. -/
theorem test_reserved : after 0x040000007B000001C8 (machine busy) = failed .illegalCommand busy := by decide
/-- The status codes of R160. -/
theorem test_status_codes :
    ([.ok, .fail .fieldOverflow, .fail .truncatedInput, .fail .invalidHeader, .fail .illegalCommand,
      .fail .illegalState, .fail .capacityExceeded, .fail .indexOutOfRange] : List Status).map
        Status.code = [0, 1, 2, 3, 4, 5, 6, 7] := by decide
/-- The parameters of R6: those of P6 are legal, a `BUF_CAP` below `ceil((15 + 11*NACK_CAP)/8)` is not. -/
theorem test_params_legal :
    Params.legal { nackCap := some 2, bufCap := some 6 } = true ∧
    Params.legal { nackCap := some 2, bufCap := some 5 } = true ∧
    Params.legal { nackCap := some 2, bufCap := some 4 } = false ∧
    Params.legal { nackCap := some 0, bufCap := none } = false ∧
    Params.legal { nackCap := some 1, bufCap := some (2 ^ 29 - 1) } = true ∧
    Params.legal { nackCap := some 1, bufCap := some (2 ^ 29) } = false ∧
    Params.legal { nackCap := none, bufCap := some 6 } = false := by decide

/-! ### Witnesses: concrete states and operands that meet the hypotheses of each statement -/

theorem witness_DecodeEncodeRoundTrip :
    (Instr.csrWr (.absent 4) 7).wellFormed = true ∧ (Instr.bufLd (.absent 3) 7).wellFormed = true ∧
      (Instr.snAdd 1020 10).wellFormed = true := by decide

/-- The boundary values of the two ranges of absent selectors. -/
theorem witness_OpcodeMapDecodes : 4 ≤ (4 : Word).toNat ∧ 3 ≤ (3 : Word).toNat := by decide

theorem witness_IgnoredFieldsAreDontCare :
    (0x10 : Opcode) ∈ ([0x01, 0x10, 0x20, 0x22, 0x30, 0x32, 0x40, 0x41, 0x42, 0x43, 0x44, 0x45, 0x46, 0x50,
      0x51] : List Opcode) ∧
    (0x31 : Opcode) ∈ ([0x01, 0x02, 0x20, 0x22, 0x30, 0x31, 0x32, 0x40, 0x43, 0x44, 0x45, 0x46, 0x50, 0x51,
      0x60, 0x63] : List Opcode) ∧
    decode 0x10DEADBEEF00000005 = .ok (.snCreate 5) := ⟨by decide, by decide, rfl⟩

theorem witness_ReservedOpcodesAnswerIllegalCommand :
    opField 0x630000000200000000 ∈ definedOpcodes ∧
    ((machine busy).withFetchWord 72 0x040000007B000001C8).requests = [0x040000007B000001C8] ∧
    opField 0x040000007B000001C8 ∉ definedOpcodes ∧ opField 0 ∉ definedOpcodes ∧
    opField 0xFFFFFFFFFFFFFFFFFF ∉ definedOpcodes := by decide

theorem witness_StepRunsTheNextCommand :
    ((machine busy).withFetchWord 72 0x310000000A00000000).requests = [0x310000000A00000000] ∧
    decode 0x310000000A00000000 = .ok (.brRead 10) ∧ (machine busy).requests = [] := ⟨rfl, rfl, rfl⟩

theorem witness_IssuedWordRunsAtOnce :
    decodeTableWord 72 0x310000000A00000000 = some (.brRead 10) := by decide

theorem witness_FailedCommandChangesNoState :
    exec (.csrRd (.absent 4)) (machine busy) =
      .next (answered (machine busy) (.fail .illegalCommand) 0 busy) := rfl

/-- One command for each of the seven failures. -/
theorem witness_FailuresHaveTheirCauses :
    exec (.bufAppend .rxb 256) (machine busy) =
      .next (answered (machine busy) (.fail .fieldOverflow) 0 busy) ∧
    exec (.brRead 9) (machine busy) = .next (answered (machine busy) (.fail .truncatedInput) 0 busy) ∧
    exec .hbDetach (machine busy) = .next (answered (machine busy) (.fail .invalidHeader) 0 busy) ∧
    exec (.bwWrite 33 0) (machine busy) = .next (answered (machine busy) (.fail .illegalCommand) 0 busy) ∧
    exec .bwFinish (machine busy) = .next (answered (machine busy) (.fail .illegalState) 0 busy) ∧
    exec (.pduPushnack 3) (small busy) = .next (answered (small busy) (.fail .capacityExceeded) 0 busy) ∧
    exec (.bufLd .rxb 5) (machine busy) = .next (answered (machine busy) (.fail .indexOutOfRange) 0 busy) :=
  ⟨rfl, rfl, rfl, rfl, rfl, rfl, rfl⟩

/-- A state with finite capacities at their bounds, and a step from it. -/
theorem witness_StepKeepsItemsInRange :
    Inv ((small busy).withFetchWord 72 0x310000000800000000) ∧
    (step ((small busy).withFetchWord 72 0x310000000800000000) =
      .next (answered (small busy) .ok 0x80 { busy with rpos := 40 })) := ⟨by decide, rfl⟩

theorem witness_ResetItemsInRange : (small busy).params.legal = true := by decide

theorem witness_SnbaseTouchedOnlyByItsCommands :
    (∀ c, Instr.snCreate 5 ≠ .csrRd c) ∧ (∀ c x, Instr.snCreate 5 ≠ .csrWr c x) ∧
    (∀ x y, Instr.snCreate 5 ≠ .snCmp x y) ∧ Instr.snCreate 5 ≠ .sysReset ∧
    exec (.snCreate 5) (machine busy) = .next (answered (machine busy) .ok 5 busy) ∧
    exec (.csrRd .snbase) (machine busy) = .next (answered (machine busy) .ok 1000 busy) ∧
    exec (.snCmp 1020 6) (machine busy) = .next (answered (machine busy) .ok 1 busy) :=
  ⟨fun _ h => Instr.noConfusion h, fun _ _ h => Instr.noConfusion h, fun _ _ h => Instr.noConfusion h,
    fun h => Instr.noConfusion h, rfl, rfl, rfl⟩

/-- A write that grows `WBITS`, with a bit written before it. -/
theorem witness_BuffersChangeOnlyInTheirWays :
    exec (.bwWrite 2 3) (machine { busy with wfin := false }) =
      .next (answered (machine { busy with wfin := false }) .ok 0
        { busy with wfin := false, wbits := [true, true, true] }) ∧
    (∃ w v, Instr.bwWrite 2 3 = .bwWrite w v) ∧ 0 < busy.wbits.length := ⟨rfl, ⟨2, 3, rfl⟩, by decide⟩

/-- A read of the last bits, a decodable `RXB` and a decodable `PKT`. -/
theorem witness_ReaderCursorMoves :
    busy.rpos ≤ 8 * busy.rxb.length ∧
    exec (.brRead 8) (machine busy) = .next (answered (machine busy) .ok 0x80 { busy with rpos := 40 }) ∧
    (1 ≤ (8 : Word).toNat ∧ (8 : Word).toNat ≤ 32 ∧ busy.rpos + (8 : Word).toNat ≤ 8 * busy.rxb.length) ∧
    des none [0x00, 0x20] = .ok { ack := 8, nacks := [], hlen := 2 } := ⟨by decide, rfl, by decide, rfl⟩

theorem witness_FlagAndPduRegistersWrittenOnlyByTheirCommands :
    exec .pduPopnack (machine busy) =
      .next (answered (machine busy) .ok 3 { busy with nackq := [1023] }) := rfl

/-- `1020 + 10` wraps to 6; `6 - 10` wraps back to 1020 (R83). -/
theorem witness_SnSubIsTheDifferenceModulo1024 :
    exec (.snAdd 1020 10) (machine busy) = .next (answered (machine busy) .ok 6 busy) ∧
    exec (.snSub 6 10) (machine Block.reset) =
      .next (answered (machine Block.reset) .ok 1020 Block.reset) := ⟨rfl, rfl⟩

/-- The distances 20 and 30 of 2.1's row with base 1000, and the two ends of the circle. -/
theorem witness_SnCmpOrdersRelativeToSnbase :
    20 = ((1020 : Word).toNat % 1024 + 1024 - (machine busy).blk.snbase.toNat) % 1024 ∧
    30 = ((6 : Word).toNat % 1024 + 1024 - (machine busy).blk.snbase.toNat) % 1024 ∧
    0 = ((1000 : Word).toNat % 1024 + 1024 - (machine busy).blk.snbase.toNat) % 1024 ∧
    1023 = ((999 : Word).toNat % 1024 + 1024 - (machine busy).blk.snbase.toNat) % 1024 := by decide

theorem witness_ComparatorIsATotalOrderFromItsBase :
    snCmp 1000 1020 6 = .lt ∧ snCmp 1000 6 999 = .lt ∧ snCmp 1000 6 1020 = .gt ∧
    snCmp 1000 6 6 = .eq ∧ (6 : Residue) ≠ 1000 ∧ (6 : Residue) ≠ 1000 - 1 := by decide

/-- One operand pair for each of the three results. -/
theorem witness_PredicatesReadOffTheComparison :
    exec (.snCmp 1020 6) (machine busy) = .next (answered (machine busy) .ok 1 (machine busy).blk) ∧
    exec (.snCmp 1030 6) (machine busy) = .next (answered (machine busy) .ok 2 (machine busy).blk) ∧
    exec (.snCmp 999 1000) (machine busy) = .next (answered (machine busy) .ok 4 (machine busy).blk) :=
  ⟨rfl, rfl, rfl⟩

/-- The five clauses, each at a boundary of its range. -/
theorem witness_BwWriteAppendsOrRefuses :
    ((0 : Word).toNat < 1 ∧ 32 < (33 : Word).toNat) ∧
    (1 ≤ (1 : Word).toNat ∧ (32 : Word).toNat ≤ 32 ∧ (machine busy).blk.wfin = true) ∧
    ((machine Block.reset).blk.wfin = false ∧ 2 ^ (3 : Word).toNat ≤ (8 : Word).toNat) ∧
    ((7 : Word).toNat < 2 ^ (3 : Word).toNat ∧
      ∃ c ∈ (small { Block.reset with wbits := List.replicate 46 true }).params.bufCap,
        8 * c < (List.replicate 46 true).length + (3 : Word).toNat) ∧
    (∀ c ∈ (small { Block.reset with wbits := List.replicate 45 true }).params.bufCap,
      (List.replicate 45 true).length + (3 : Word).toNat ≤ 8 * c) := by
  refine ⟨by decide, by decide, by decide, ⟨by decide, 6, rfl, by decide⟩, ?_⟩
  rintro c hc
  cases hc
  decide

theorem witness_BwFinishSetsTheFlagOnce :
    (machine busy).blk.wfin = true ∧ (machine Block.reset).blk.wfin = false := by decide

/-- The fields of S1, 15 bits, within `BUF_CAP = 6`. -/
theorem witness_WrittenFieldsReadBack :
    (∀ f ∈ ([(1, 0), (3, 0), (10, 8), (1, 0)] : List (Word × Word)),
      1 ≤ f.1.toNat ∧ f.1.toNat ≤ 32 ∧ f.2.toNat < 2 ^ f.1.toNat) ∧
    (([(1, 0), (3, 0), (10, 8), (1, 0)] : List (Word × Word)).map fun f => f.1.toNat).sum ≤ 8 * 6 ∧
    ({ small busy with
        requests := encode .bwReset :: (([(1, 0), (3, 0), (10, 8), (1, 0)] : List (Word × Word)).map
          fun f => encode (.bwWrite f.1 f.2)) ++ [encode .bwFinish] } : State).requests =
      [0x200000000000000000, 0x210000000100000000, 0x210000000300000000, 0x210000000A00000008,
        0x210000000100000000, 0x220000000000000000] :=
  ⟨by simp, by decide, rfl⟩

/-- `0xA5` in 8 bits, as `0xA` and `0x5`; `0xA5A5A5A5` in 32. -/
theorem witness_SplitWriteLeavesTheSameBits :
    (8 : Word).toNat = (4 : Word).toNat + (4 : Word).toNat ∧ (8 : Word).toNat ≤ 32 ∧
    (0xA : Word).toNat < 2 ^ (4 : Word).toNat ∧ (0x5 : Word).toNat < 2 ^ (4 : Word).toNat ∧
    (0xA5 : Word).toNat = (0xA : Word).toNat * 2 ^ (4 : Word).toNat + (0x5 : Word).toNat ∧
    (machine Block.reset).blk.wfin = false ∧ (machine Block.reset).params.bufCap = none ∧
    (32 : Word).toNat = (16 : Word).toNat + (16 : Word).toNat ∧
    (0xA5A5A5A5 : Word).toNat =
      (0xA5A5 : Word).toNat * 2 ^ (16 : Word).toNat + (0xA5A5 : Word).toNat := by decide

/-- The three clauses: widths 0 and 33; 8 bits left and 9 wanted; 8 bits left and 8 wanted. -/
theorem witness_BrReadConsumesOrRefuses :
    ((0 : Word).toNat < 1 ∧ 32 < (33 : Word).toNat) ∧
    (1 ≤ (9 : Word).toNat ∧ (9 : Word).toNat ≤ 32 ∧
      8 * (machine busy).blk.rxb.length < (machine busy).blk.rpos + (9 : Word).toNat) ∧
    (1 ≤ (8 : Word).toNat ∧ (8 : Word).toNat ≤ 32 ∧
      (machine busy).blk.rpos + (8 : Word).toNat ≤ 8 * (machine busy).blk.rxb.length) := by decide

theorem witness_BrRemainCountsTheBitsLeft :
    8 * (machine busy).blk.rxb.length - (machine busy).blk.rpos < 2 ^ 32 := by decide

theorem witness_SplitReadGivesTheSameValue :
    1 ≤ (3 : Word).toNat ∧ 1 ≤ (5 : Word).toNat ∧ (8 : Word).toNat = (3 : Word).toNat + (5 : Word).toNat ∧
    (8 : Word).toNat ≤ 32 ∧
    (machine busy).blk.rpos + (8 : Word).toNat ≤ 8 * (machine busy).blk.rxb.length := by decide

/-- The row `3:5`, `7:21` of `A5 5A` (2.3): 10 bits, 2 bytes. -/
theorem witness_ReaderInvertsTheWriter :
    (∀ f ∈ ([(3, 5), (7, 21)] : List (Word × Word)),
      1 ≤ f.1.toNat ∧ f.1.toNat ≤ 32 ∧ f.2.toNat < 2 ^ f.1.toNat) ∧
    ({ machine { Block.reset with rxb := [0xA5, 0x40] } with
        requests := [0x310000000300000000, 0x310000000700000000] } : State).blk.rxb =
      pack (([(3, 5), (7, 21)] : List (Word × Word)).flatMap fun f =>
        (List.range f.1.toNat).map fun k => f.2.getLsbD (f.1.toNat - 1 - k)) ∧
    [0x310000000300000000, 0x310000000700000000] =
      (([(3, 5), (7, 21)] : List (Word × Word)).map fun f => encode (.brRead f.1)) :=
  ⟨by simp, by decide, rfl⟩

theorem witness_PduSetackStoresTheResidue : (machine Block.reset).blk.nackq = [] := by decide

/-- A queue with one entry less than `NACK_CAP`, and a full one. -/
theorem witness_PduPushnackAppendsAtTheTail :
    (∃ c ∈ (small busy).params.nackCap, c ≤ (small busy).blk.nackq.length) ∧
    (∀ c ∈ (small { busy with nackq := [3] }).params.nackCap,
      (small { busy with nackq := [3] }).blk.nackq.length < c) := by
  refine ⟨⟨2, rfl, by decide⟩, ?_⟩
  rintro c hc
  cases hc
  decide

theorem witness_PduPopnackTakesTheHeadOrSentinel :
    (machine Block.reset).blk.nackq = [] ∧ (machine busy).blk.nackq = 3 :: [1023] := by decide

theorem witness_PopsDrainTheQueueInOrder :
    ({ machine busy with requests := List.replicate 4 0x440000000000000000 } : State).requests =
      List.replicate ((machine busy).blk.nackq.length + 2) (encode .pduPopnack) := by decide

/-- W5: its last entry, and its first and last padding bit. -/
theorem witness_EncodedPduHasTheWireLayout :
    1 < ([3, 1023] : List Residue).length ∧
    (15 + 11 * ([3, 1023] : List Residue).length ≤ 37 ∧
      39 < 8 * ((15 + 11 * ([3, 1023] : List Residue).length + 7) / 8)) := by decide

/-- W1 is the empty list; W9 has no padding, row 6 of W-LEN has 7 bits. -/
theorem witness_EncodedPduHasItsLength :
    (serBits 8 []).length = 15 ∧ (ser 8 []).length = 2 ∧
    (8 - (15 + 11 * 3) % 8) % 8 = 0 ∧ (8 - (15 + 11 * 6) % 8) % 8 = 7 := by decide

/-- X6 succeeds (both directions), within `NACK_CAP = 2`. -/
theorem witness_DecodeSucceedsExactlyOnWholePdus :
    des (some 2) [0x00, 0x16, 0x01, 0xFF, 0xF0] = .ok { ack := 5, nacks := [3, 1023], hlen := 5 } := rfl

/-- The five clauses: X14; X15; X25, which ends right before a seventh E1; X19; X26. -/
theorem witness_DecodeReportsTheFirstFailure :
    ([0x80] : List Byte).length < 2 ∧
    field [0x10, 0x00] 0 4 ≠ 0 ∧
    (field [0x0F, 0xFF, 0xFF, 0xFF, 0xFF, 0xFF, 0xFF, 0xFF, 0xFF, 0xFF] 0 4 = 0 ∧
      (∀ j < 6, bitAt [0x0F, 0xFF, 0xFF, 0xFF, 0xFF, 0xFF, 0xFF, 0xFF, 0xFF, 0xFF] (14 + 11 * j) = true) ∧
      14 + 11 * 6 ≤ 8 * 10 ∧ 8 * 10 < 15 + 11 * 6) ∧
    (field [0x00, 0x22] 0 4 = 0 ∧ (∀ j ≤ 0, bitAt [0x00, 0x22] (14 + 11 * j) = true) ∧
      15 + 11 * 0 ≤ 8 * 2 ∧ 8 * 2 < 25 + 11 * 0) ∧
    (field [0x0F, 0xFF, 0xFF, 0xFF, 0xFF, 0xFE] 0 4 = 0 ∧
      (∀ j ≤ 2, bitAt [0x0F, 0xFF, 0xFF, 0xFF, 0xFF, 0xFE] (14 + 11 * j) = true) ∧
      25 + 11 * 2 ≤ 8 * 6) :=
  ⟨by decide, by decide, by decide, by decide, by decide⟩

theorem witness_PduDesStoresTheDecodedPdu :
    des (machine { busy with rxb := [0x00, 0x22] }).params.nackCap [0x00, 0x22] = .error .truncatedInput ∧
    des (machine { busy with rxb := [0x00, 0x21] }).params.nackCap [0x00, 0x21] =
      .ok { ack := 8, nacks := [], hlen := 2 } := ⟨rfl, rfl⟩

/-- A list exactly at the capacity. -/
theorem witness_DecodeInvertsEncode : ∀ c ∈ some 2, ([3, 1023] : List Residue).length ≤ c := by
  rintro c hc
  cases hc
  decide

/-- X6 and X7: they differ in the three padding bits 37 to 39. -/
theorem witness_PaddingIsZeroAndNotChecked :
    15 + 11 * ([3, 1023] : List Residue).length ≤ 37 ∧ 37 < 8 * (ser 5 [3, 1023]).length ∧
    des none [0x00, 0x16, 0x01, 0xFF, 0xF0] = .ok { ack := 5, nacks := [3, 1023], hlen := 5 } ∧
    5 ≤ ([0x00, 0x16, 0x01, 0xFF, 0xF7] : List Byte).length ∧
    (∀ i < 15 + 11 * 2, bitAt [0x00, 0x16, 0x01, 0xFF, 0xF7] i = bitAt [0x00, 0x16, 0x01, 0xFF, 0xF0] i) :=
  ⟨by decide, by decide, rfl, by decide, by decide⟩

/-- X3: the padding bit is 1, and X1: it is 0. -/
theorem witness_ReencodingGivesTheHeaderBackWhenPaddingIsZero :
    des none [0x00, 0x21] = .ok { ack := 8, nacks := [], hlen := 2 } ∧
    des none [0x00, 0x20] = .ok { ack := 8, nacks := [], hlen := 2 } ∧
    (15 + 11 * 0 ≤ 15 ∧ 15 < 8 * 2 ∧ bitAt [0x00, 0x20] 15 = false) := ⟨rfl, rfl, by decide⟩

/-- P2's hand-written sequence for `(8, [])`. -/
theorem witness_PduSerIsThePrimitiveSequence :
    Inv { small { busy with ack := 8, nackq := [] } with
      requests := [0x200000000000000000, 0x210000000100000000, 0x210000000300000000, 0x210000000A00000008,
        0x210000000100000000, 0x220000000000000000] } ∧
    [0x200000000000000000, 0x210000000100000000, 0x210000000300000000, 0x210000000A00000008,
        0x210000000100000000, 0x220000000000000000] =
      ([.bwReset, .bwWrite 1 0, .bwWrite 3 0, .bwWrite 10 ((8 : Residue).setWidth 32)] ++
        (([] : List Residue).flatMap fun n => [.bwWrite 1 1, .bwWrite 10 (n.setWidth 32)]) ++
        [.bwWrite 1 0, .bwFinish] : List Instr).map encode := by decide

/-- X3, with one padding bit, and the reads of R123 for it. -/
theorem witness_PduDesIsThePrimitiveSequence :
    des (machine { busy with rxb := [0x00, 0x21] }).params.nackCap
      (machine { busy with rxb := [0x00, 0x21] }).blk.rxb = .ok { ack := 8, nacks := [], hlen := 2 } ∧
    1 = (8 - (15 + 11 * ([] : List Residue).length) % 8) % 8 ∧
    ([0x300000000000000000, 0x310000000400000000, 0x310000000A00000000, 0x310000000100000000,
        0x310000000100000000] : List CommandWord) =
      ([.brReset, .brRead 4, .brRead 10] ++
        (([] : List Residue).flatMap fun _ => [.brRead 1, .brRead 10]) ++ [.brRead 1] ++
        (if 1 = 0 then [] else [.brRead (BitVec.ofNat 32 1)]) : List Instr).map encode :=
  ⟨rfl, by decide, rfl⟩

/-- `NACKQ = [1, 2]` is 5 bytes: a packet of 1 byte just fits `BUF_CAP = 6`, one of 2 bytes does not. -/
theorem witness_HbAttachPrependsTheHeader :
    (∃ c ∈ (small { busy with nackq := [1, 2], pkt := [1, 2] }).params.bufCap,
      c < (15 + 11 * ([1, 2] : List Residue).length + 7) / 8 + ([1, 2] : List Byte).length) ∧
    (∀ c ∈ (small { busy with nackq := [1, 2], pkt := [1] }).params.bufCap,
      (15 + 11 * ([1, 2] : List Residue).length + 7) / 8 + ([1] : List Byte).length ≤ c) := by
  refine ⟨⟨6, rfl, by decide⟩, ?_⟩
  rintro c hc
  cases hc
  decide

/-- H9 and H6. -/
theorem witness_HbDetachRemovesTheHeader :
    des (machine { busy with pkt := [0x00, 0x22] }).params.nackCap [0x00, 0x22] = .error .truncatedInput ∧
    des (machine { busy with pkt := [0x00, 0x20] }).params.nackCap [0x00, 0x20] =
      .ok { ack := 8, nacks := [], hlen := 2 } := ⟨rfl, rfl⟩

/-- H1's attach, and the state right after it. -/
theorem witness_DetachUndoesAttach :
    ∃ b : Block,
      exec .hbAttach (machine { busy with ack := 8, nackq := [] }) =
        .next (answered (machine { busy with ack := 8, nackq := [] }) .ok 2 b) ∧
      (machine b).blk.pkt = b.pkt ∧
      (machine b).params = (machine { busy with ack := 8, nackq := [] }).params ∧
      (machine { busy with ack := 8, nackq := [] }).params.nackCap = none :=
  ⟨_, rfl, rfl, rfl, rfl⟩

theorem witness_CsrRdReadsTheRegisterMap :
    (machine Block.reset).blk.wfin = false ∧ (machine busy).blk.wfin = true := by decide

theorem witness_CsrWrWritesSnbaseOnly :
    Csr.status ≠ .snbase ∧ Csr.wpos ≠ .snbase ∧ Csr.rpos ≠ .snbase ∧ Csr.absent 4 ≠ .snbase := by decide

theorem witness_BufClearEmptiesTheSpace :
    (Space.txb ≠ .rxb ∧ Space.txb ≠ .pkt) ∧ (Space.absent 3 ≠ .rxb ∧ Space.absent 3 ≠ .pkt) := by decide

/-- The operands 255 and 256; buffers of 5 and of 6 bytes with `BUF_CAP = 6`. -/
theorem witness_BufAppendAddsAtTheBack :
    (Space.txb ≠ .rxb ∧ Space.txb ≠ .pkt) ∧ 256 ≤ (256 : Word).toNat ∧ (255 : Word).toNat < 256 ∧
    (∃ c ∈ (small busy).params.bufCap, c < ([1, 2, 3, 4, 5, 6] : List Byte).length + 1) ∧
    (∀ c ∈ (small busy).params.bufCap, busy.rxb.length + 1 ≤ c ∧ busy.pkt.length + 1 ≤ c) := by
  refine ⟨by decide, by decide, by decide, ⟨6, rfl, by decide⟩, ?_⟩
  rintro c hc
  cases hc
  decide

/-- The last index and the first beyond it, in each space. -/
theorem witness_BufLdReadsTheByte :
    (machine Block.reset).blk.wfin = false ∧ (machine busy).blk.wfin = true ∧
    (pack busy.wbits).length ≤ (1 : Word).toNat ∧ (0 : Word).toNat < (pack busy.wbits).length ∧
    busy.rxb.length ≤ (5 : Word).toNat ∧ (4 : Word).toNat < busy.rxb.length ∧
    busy.pkt.length ≤ (2 : Word).toNat ∧ (1 : Word).toNat < busy.pkt.length := by decide

theorem witness_BufLenReadsTheLength :
    (machine Block.reset).blk.wfin = false ∧ (machine busy).blk.wfin = true ∧
    (pack busy.wbits).length = 1 := by decide

end Sys2Proof.Tests
end

/-! PROOFS. The statements about the step and the command interface (spec/00_scope.md R11, R12). -/

namespace Sys2Proof.Proofs

open Sys2Proof.Machine Sys2Proof.Safety

/-! ### What a step does -/

theorem step_of_requests_nil {s : State} (h : s.requests = []) : step s = .next s := by
  simp only [step, fetch_nil h, idle]

theorem step_of_decode_ok {s : State} {cw : CommandWord} {rest : List CommandWord} {i : Instr}
    (hr : s.requests = cw :: rest) (hd : decode cw = .ok i) :
    step s = exec i { s with requests := rest } := by
  simp only [step, fetch_cons hr, hd]

/-! ### Issued words -/

theorem decodeTableWord_eq_some {nbits w : Nat} {i : Instr} :
    decodeTableWord nbits w = some i ↔ decode (tableWord nbits w) = .ok i := by
  unfold decodeTableWord
  cases decode (tableWord nbits w) <;> simp [Except.toOption]

/-! ### The statements -/

/-- Settles O8: every command ends in a `return` or in a `raise`, and either gives one response. -/
theorem everyCommandAnswersOnce : Obligations.EveryCommandAnswersOnce := by
  intro i s
  obtain ⟨b, r, h⟩ | ⟨f, h⟩ := exec_cases i s
  · exact ⟨.ok, r, b, h.trans (respond_eq s b r)⟩
  · exact ⟨.fail f, 0, s.blk, h.trans (raise_eq f s)⟩

/-- Settles O6: the two cases of the request port, a word that decodes and no word at all. -/
theorem stepRunsTheNextCommand : Obligations.StepRunsTheNextCommand :=
  ⟨fun _ _ _ _ hr hd => step_of_decode_ok hr hd, fun _ h => step_of_requests_nil h⟩

/-- Settles O7: the issued word stands first on the port, and taking it leaves the state it was issued in. -/
theorem issuedWordRunsAtOnce : Obligations.IssuedWordRunsAtOnce := by
  intro s nbits w i h
  have hr : (s.withFetchWord nbits w).requests = tableWord nbits w :: s.requests := rfl
  exact step_of_decode_ok hr (decodeTableWord_eq_some.mp h)

end Sys2Proof.Proofs

/-! PROOFS. The statements about the block's state: what each command writes, the range of each item,
who reads and writes `SNBASE`, the cursor, the flag and the PDU registers (spec/10_state.md). -/

namespace Sys2Proof.Proofs

open Sys2Proof.Machine Sys2Proof.Safety

/-! ### What a command writes -/

/-- The block that a command writes when it succeeds, with the check it has made before the write. A command
that only reads has no constructor. -/
inductive BlockUpdate (s : State) : Instr → Block → Prop
  | sysReset : BlockUpdate s .sysReset Block.reset
  | csrWr (v : Word) : BlockUpdate s (.csrWr .snbase v) { s.blk with snbase := create v }
  | bwReset : BlockUpdate s .bwReset { s.blk with wbits := [], wfin := false }
  | bwWrite (w v : Word) (room : overBitCap s.params.bufCap (s.blk.wpos + w.toNat) = false) :
      BlockUpdate s (.bwWrite w v) (s.blk.appendBits v.toNat w.toNat)
  | bwFinish : BlockUpdate s .bwFinish { s.blk with wfin := true }
  | brReset : BlockUpdate s .brReset { s.blk with rpos := 0 }
  | brRead (w : Word) (left : s.blk.rpos + w.toNat ≤ 8 * s.blk.rxb.length) :
      BlockUpdate s (.brRead w) { s.blk with rpos := s.blk.rpos + w.toNat }
  | pduClear : BlockUpdate s .pduClear (s.blk.setPdu 0 [])
  | pduSetack (raw : Word) : BlockUpdate s (.pduSetack raw) (s.blk.setPdu (create raw) s.blk.nackq)
  | pduPushnack (raw : Word) (room : overCap s.params.nackCap (s.blk.nackq.length + 1) = false) :
      BlockUpdate s (.pduPushnack raw) (s.blk.setPdu s.blk.ack (s.blk.nackq ++ [create raw]))
  | pduPopnack : BlockUpdate s .pduPopnack (s.blk.setPdu s.blk.ack s.blk.nackq.tail)
  | pduSer : BlockUpdate s .pduSer (s.blk.loadWriter (serBits s.blk.ack s.blk.nackq))
  | pduDes (d : Decoded) (decoded : des s.params.nackCap s.blk.rxb = .ok d) :
      BlockUpdate s .pduDes ((s.blk.setPdu d.ack d.nacks).bindReader s.blk.rxb (8 * d.hlen))
  | hbAttach (room : overCap s.params.bufCap
        ((ser s.blk.ack s.blk.nackq).length + s.blk.pkt.length) = false) :
      BlockUpdate s .hbAttach
        ((s.blk.loadWriter (serBits s.blk.ack s.blk.nackq)).prependPkt (ser s.blk.ack s.blk.nackq))
  | hbDetach (d : Decoded) (decoded : des s.params.nackCap s.blk.pkt = .ok d) :
      BlockUpdate s .hbDetach
        (((s.blk.bindReader s.blk.pkt (8 * d.hlen)).setPdu d.ack d.nacks).dropPkt d.hlen)
  | bufClearRxb : BlockUpdate s (.bufClear .rxb) s.blk.clearRxb
  | bufClearPkt : BlockUpdate s (.bufClear .pkt) s.blk.clearPkt
  | bufAppendRxb (x : Word) (room : overCap s.params.bufCap (s.blk.rxb.length + 1) = false) :
      BlockUpdate s (.bufAppend .rxb x) (s.blk.appendRxb (x.setWidth 8))
  | bufAppendPkt (x : Word) (room : overCap s.params.bufCap (s.blk.pkt.length + 1) = false) :
      BlockUpdate s (.bufAppend .pkt x) (s.blk.appendPkt (x.setWidth 8))

/-- The ways a command ends, as far as the block goes: it answers `OK` and only reads, it fails, or it
answers `OK` and has made its update. -/
inductive Ends (i : Instr) (s : State) : Host.Outcome State Fault Refusal → Prop
  | reads (r : Word) : Ends i s (respond s s.blk r)
  | fails (f : Failure) : Ends i s (raise f s)
  | writes (r : Word) (b : Block) (update : BlockUpdate s i b) : Ends i s (respond s b r)

/-- `BUF.APPEND` on a space whose block with the byte added is an update of the command. -/
theorem appendByte_ends {i : Instr} {s : State} (x : Word) {len : Nat} {b : Block}
    (h : overCap s.params.bufCap (len + 1) = false → BlockUpdate s i b) :
    Ends i s (appendByte x len b s) := by
  obtain ⟨_, e⟩ | ⟨_, _, e⟩ | ⟨_, room, e⟩ := appendByte_cases x len b s <;> rw [e]
  · exact .fails _
  · exact .fails _
  · exact .writes _ _ (h room)

/-- What a command can do to the block, said once for every command; the invariant and the frame statements
below rest on it. -/
theorem exec_ends (i : Instr) (s : State) : Ends i s (exec i s) := by
  cases i with
  | sysReset => exact .writes _ _ .sysReset
  | csrRd csr =>
    simp only [exec, execCsrRd]
    split
    · exact .reads _
    · exact .fails _
  | csrWr csr v =>
    cases csr with
    | snbase => exact .writes _ _ (.csrWr v)
    | _ => exact .fails _
  | bwReset => exact .writes _ _ .bwReset
  | bwWrite w v =>
    simp only [exec]
    obtain ⟨_, e⟩ | ⟨_, ⟨_, e⟩ | ⟨_, ⟨_, e⟩ | ⟨_, ⟨_, e⟩ | ⟨room, e⟩⟩⟩⟩ := execBwWrite_cases w v s <;>
      rw [e]
    case inr.inr.inr.inr => exact .writes _ _ (.bwWrite w v room)
    all_goals exact .fails _
  | bwFinish =>
    simp only [exec, execBwFinish]
    split
    · exact .fails _
    · exact .writes _ _ .bwFinish
  | brReset => exact .writes _ _ .brReset
  | brRead w =>
    simp only [exec]
    obtain ⟨_, e⟩ | ⟨_, ⟨_, e⟩ | ⟨left, e⟩⟩ := execBrRead_cases w s <;> rw [e]
    case inr.inr => exact .writes _ _ (.brRead w left)
    all_goals exact .fails _
  | pduClear => exact .writes _ _ .pduClear
  | pduSetack raw => exact .writes _ _ (.pduSetack raw)
  | pduPushnack raw =>
    simp only [exec, execPduPushnack]
    split
    · exact .fails _
    · next room => exact .writes _ _ (.pduPushnack raw (Bool.eq_false_iff.mpr room))
  | pduPopnack =>
    simp only [exec, execPduPopnack]
    split
    · exact .reads _
    · next v rest hq => exact .writes _ _ (by simpa [hq] using BlockUpdate.pduPopnack (s := s))
  | pduSer => exact .writes _ _ .pduSer
  | pduDes =>
    simp only [exec, execPduDes]
    split
    · exact .fails _
    · next d decoded => exact .writes _ _ (.pduDes d decoded)
  | hbAttach =>
    simp only [exec, execHbAttach]
    split
    · exact .fails _
    · next room => exact .writes _ _ (.hbAttach (Bool.eq_false_iff.mpr room))
  | hbDetach =>
    simp only [exec, execHbDetach]
    split
    · exact .fails _
    · next d decoded => exact .writes _ _ (.hbDetach d decoded)
  | bufClear space =>
    cases space with
    | rxb => exact .writes _ _ .bufClearRxb
    | pkt => exact .writes _ _ .bufClearPkt
    | _ => exact .fails _
  | bufAppend space x =>
    cases space with
    | rxb => exact appendByte_ends x (.bufAppendRxb x)
    | pkt => exact appendByte_ends x (.bufAppendPkt x)
    | _ => exact .fails _
  | bufLd space index =>
    simp only [exec, execBufLd]
    split
    · exact .fails _
    · split
      · exact .fails _
      · exact .reads _
  | bufLen space =>
    simp only [exec, execBufLen]
    split
    · exact .fails _
    · exact .reads _
  | snCreate | snAdd | snSub | snCmp | brRemain | pduGetack => exact .reads _

/-- A command that answers has left the block as it was, or has answered `OK` and made its update. -/
theorem exec_answered {i : Instr} {s : State} {st : Status} {r : Word} {b : Block}
    (h : exec i s = .next (answered s st r b)) : b = s.blk ∨ st = .ok ∧ BlockUpdate s i b := by
  have e := exec_ends i s
  generalize exec i s = o at h e
  cases e with
  | reads =>
    obtain ⟨-, -, hb⟩ := respond_answered.mp h
    exact .inl hb
  | fails =>
    obtain ⟨-, -, hb⟩ := raise_answered.mp h
    exact .inl hb
  | writes r' b' update =>
    obtain ⟨hst, -, rfl⟩ := respond_answered.mp h
    exact .inr ⟨hst, update⟩

/-! ### Every item stays in its range -/

/-- A decoded list is within `NACK_CAP`. -/
theorem des_ok_nacks_fit {cap : Option Nat} {buf : List Byte} {d : Decoded} (h : des cap buf = .ok d) :
    overCap cap d.nacks.length = false := by
  obtain ⟨_, _, _, _, _, _, _, hn | hn⟩ := des_ok h
  · cases cap <;> simp [hn]
  · exact hn

section

variable {i : Instr} {s : State} {b : Block} (h : BlockUpdate s i b)

include h

/-- An update keeps the cursor within `RXB` (R26). -/
theorem BlockUpdate.rpos_le (hr : s.blk.rpos ≤ 8 * s.blk.rxb.length) : b.rpos ≤ 8 * b.rxb.length := by
  cases h with
  | sysReset | brReset | bufClearRxb => exact Nat.zero_le _
  | brRead w left => exact left
  | pduDes d decoded | hbDetach d decoded => exact Nat.mul_le_mul_left 8 (des_ok_hlen decoded).2
  | bufAppendRxb x room => exact hr.trans (by simp)
  | _ => exact hr

/-- An update keeps the queue within `NACK_CAP` (R29). -/
theorem BlockUpdate.nackq_fits (hq : overCap s.params.nackCap s.blk.nackq.length = false) :
    overCap s.params.nackCap b.nackq.length = false := by
  cases h with
  | sysReset | pduClear => exact overCap_mono hq (Nat.zero_le _)
  | pduPopnack => exact overCap_mono hq (by simp)
  | pduPushnack raw room => simpa using room
  | pduDes d decoded | hbDetach d decoded => exact des_ok_nacks_fit decoded
  | _ => exact hq

/-- An update keeps the three buffers within `BUF_CAP` (R22, R25, R27). -/
theorem BlockUpdate.memory_wf (hi : Inv s) : Memory.wf s.params b = true := by
  obtain ⟨hlegal, hwf, hq, -⟩ := hi
  have hser := serBits_fits hlegal s.blk.ack hq
  obtain ⟨hwbits, hrxb, hpkt⟩ := Memory.wf_iff.mp hwf
  cases h with
  | sysReset => exact Memory.reset_wf _
  | bwReset => exact Memory.wf_iff.mpr ⟨overBitCap_mono hwbits (Nat.zero_le _), hrxb, hpkt⟩
  | bwWrite w v room => exact Memory.appendBits_wf hwf _ _ room
  | pduSer => exact Memory.loadWriter_wf hwf _ hser
  | pduDes d decoded => exact Memory.bindReader_wf (Memory.setPdu_wf hwf _ _) _ _ hrxb
  | hbAttach room => exact Memory.prependPkt_wf (Memory.loadWriter_wf hwf _ hser) _ room
  | hbDetach d decoded =>
    exact Memory.dropPkt_wf (Memory.setPdu_wf (Memory.bindReader_wf hwf _ _ hpkt) _ _) _
  | bufClearRxb => exact Memory.clearRxb_wf hwf
  | bufClearPkt => exact Memory.clearPkt_wf hwf
  | bufAppendRxb x room => exact Memory.appendRxb_wf hwf _ room
  | bufAppendPkt x room => exact Memory.appendPkt_wf hwf _ room
  | _ => exact hwf

end

/-- A command keeps the invariant: the block is as it was, or an update of it. -/
theorem exec_keeps_inv {i : Instr} {s t : State} (hi : Inv s) (h : exec i s = .next t) : Inv t := by
  obtain ⟨st, r, b, e⟩ := everyCommandAnswersOnce i s
  obtain rfl : answered s st r b = t := Host.Outcome.next.inj (e.symm.trans h)
  have ⟨hlegal, _, hq, hr⟩ := hi
  obtain rfl | ⟨-, update⟩ := exec_answered e
  · exact hi
  · exact ⟨hlegal, update.memory_wf hi, update.nackq_fits hq, update.rpos_le hr⟩

/-- A step that leaves `t` was idle, or ran a command, or rejected the next word, on the state without that
word. -/
theorem step_cases {s t : State} (h : step s = .next t) :
    t = s ∨ ∃ rest : List CommandWord,
      (∃ i, exec i { s with requests := rest } = .next t) ∨
        raise .illegalCommand { s with requests := rest } = .next t := by
  cases hr : s.requests with
  | nil =>
    rw [step_of_requests_nil hr] at h
    exact .inl (Host.Outcome.next.inj h).symm
  | cons cw rest =>
    cases hd : decode cw with
    | ok i => exact .inr ⟨rest, .inl ⟨i, step_of_decode_ok hr hd ▸ h⟩⟩
    | error e =>
      simp only [step, fetch_cons hr, hd, rejectWord_eq_raise] at h
      exact .inr ⟨rest, .inr h⟩

/-- Settles O11: a step leaves the block as it was or makes one command's update, and each update keeps
every item in its range. -/
theorem stepKeepsItemsInRange : Obligations.StepKeepsItemsInRange := by
  intro s t hi h
  obtain rfl | ⟨rest, ⟨i, hx⟩ | hx⟩ := step_cases h
  · exact hi
  · exact exec_keeps_inv (s := { s with requests := rest }) hi hx
  · rw [raise_next.mp hx]
    exact hi

/-! ### Reset -/

/-- Settles O12: the reset block is empty, and an empty block is within every capacity. -/
theorem resetItemsInRange : Obligations.ResetItemsInRange := by
  have hreset (s : State) (hlegal : s.params.legal = true) : Inv { s with blk := Block.reset } :=
    ⟨hlegal, Memory.reset_wf _, overCap_eq_false.mpr fun _ _ => Nat.zero_le _, Nat.zero_le _⟩
  exact ⟨hreset State.reset rfl, hreset⟩

/-- Settles O13: both sides are the reset block, written out. -/
theorem resetLeavesTheResetValues : Obligations.ResetLeavesTheResetValues :=
  ⟨rfl, fun s => respond_eq s Block.reset 0⟩

/-! ### The register map -/

theorem residueWord_eq_ofNat (v : Residue) : residueWord v = BitVec.ofNat 32 v.toNat :=
  BitVec.eq_of_toNat_eq (by simp [residueWord])

theorem create_eq_ofNat (raw : Word) : create raw = BitVec.ofNat 10 (raw.toNat % 1024) :=
  BitVec.eq_of_toNat_eq (by simp)

theorem countWord_eq_ofNat_mod (n : Nat) : countWord n = BitVec.ofNat 32 (n % 2 ^ 32) :=
  BitVec.eq_of_toNat_eq (by simp [countWord])

theorem exec_csrRd_of_value {s : State} {csr : Csr} {v : Word} (h : csrValue s.blk csr = some v) :
    exec (.csrRd csr) s = .next (answered s .ok v s.blk) := by
  simp only [exec, execCsrRd, h, respond_eq]

theorem exec_csrRd_absent (s : State) (n : Word) :
    exec (.csrRd (.absent n)) s = .next (answered s (.fail .illegalCommand) 0 s.blk) :=
  raise_eq _ s

/-- Settles O55: each register's value is the one `csrValue` gives, its number written out. -/
theorem csrRdReadsTheRegisterMap : Obligations.CsrRdReadsTheRegisterMap := by
  intro s
  refine ⟨?_, fun hf => ?_, fun hf => ?_, ?_, ?_, exec_csrRd_absent s⟩ <;> apply exec_csrRd_of_value
  · rw [csrValue, residueWord_eq_ofNat]
  · simp [csrValue, statusWord, hf]
  · simp [csrValue, statusWord, hf]
  · rw [csrValue, countWord_eq_ofNat_mod, Block.wpos]
  · rw [csrValue, countWord_eq_ofNat_mod]

/-- Settles O56: `SNBASE` is the only writable register. -/
theorem csrWrWritesSnbaseOnly : Obligations.CsrWrWritesSnbaseOnly := by
  intro s v
  rw [← create_eq_ofNat]
  refine ⟨respond_eq s _ 0, fun c hc => ?_⟩
  cases c with
  | snbase => exact absurd rfl hc
  | _ => exact raise_eq _ s

/-! ### Who reads and who writes `SNBASE` -/

/-- The state with another value in `SNBASE`. -/
def withSnbase (s : State) (v : Residue) : State := { s with blk := { s.blk with snbase := v } }

/-- The outcome of a command that leaves another value in `SNBASE`, all else alike. -/
def outcomeWithSnbase (v : Residue) :
    Host.Outcome State Fault Refusal → Host.Outcome State Fault Refusal
  | .next s => .next (withSnbase s v)
  | .fault f => .fault f
  | .refused f => .refused f

/-- The commands that R21 names for `SNBASE`: those that read it and those that write it. -/
def usesSnbase : Instr → Bool
  | .csrRd _ | .csrWr _ _ | .snCmp _ _ | .sysReset => true
  | _ => false

@[simp] theorem readableSpace_withSnbase (s : State) (v : Residue) (sp : Space) :
    readableSpace (withSnbase s v).blk sp = readableSpace s.blk sp := by
  cases sp <;> rfl

theorem appendByte_withSnbase (x : Word) (len : Nat) (b : Block) (s : State) (v : Residue) :
    appendByte x len { b with snbase := v } (withSnbase s v) =
      outcomeWithSnbase v (appendByte x len b s) := by
  simp only [appendByte, apply_ite (outcomeWithSnbase v)]
  rfl

/-- A command that does not use `SNBASE` gives the same outcome with any other value in it. -/
theorem exec_withSnbase {i : Instr} (hi : usesSnbase i = false) (s : State) (v : Residue) :
    exec i (withSnbase s v) = outcomeWithSnbase v (exec i s) := by
  cases i with
  | csrRd | csrWr | snCmp | sysReset => cases hi
  | bwWrite | bwFinish | brRead | pduPushnack | hbAttach =>
    simp only [exec, execBwWrite, execBwFinish, execBrRead, execPduPushnack, execHbAttach,
      apply_ite (outcomeWithSnbase v)]
    rfl
  | pduPopnack =>
    have hq : (withSnbase s v).blk.nackq = s.blk.nackq := rfl
    simp only [exec, execPduPopnack, hq]
    cases s.blk.nackq <;> rfl
  | pduDes =>
    have hd : des (withSnbase s v).params.nackCap (withSnbase s v).blk.rxb =
        des s.params.nackCap s.blk.rxb := rfl
    simp only [exec, execPduDes, hd]
    cases des s.params.nackCap s.blk.rxb <;> rfl
  | hbDetach =>
    have hd : des (withSnbase s v).params.nackCap (withSnbase s v).blk.pkt =
        des s.params.nackCap s.blk.pkt := rfl
    simp only [exec, execHbDetach, hd]
    cases des s.params.nackCap s.blk.pkt <;> rfl
  | bufClear sp => cases sp <;> rfl
  | bufAppend sp x =>
    cases sp with
    | rxb => exact appendByte_withSnbase x s.blk.rxb.length (s.blk.appendRxb (x.setWidth 8)) s v
    | pkt => exact appendByte_withSnbase x s.blk.pkt.length (s.blk.appendPkt (x.setWidth 8)) s v
    | _ => rfl
  | bufLd sp index =>
    simp only [exec, execBufLd, readableSpace_withSnbase]
    cases readableSpace s.blk sp with
    | error f => rfl
    | ok buf =>
      simp only
      cases buf[index.toNat]? <;> rfl
  | bufLen sp =>
    simp only [exec, execBufLen, readableSpace_withSnbase]
    cases readableSpace s.blk sp <;> rfl
  | _ => rfl

/-- Settles O15: the commands that do not use `SNBASE` give the same outcome with any value in it, and the
two that read it have no update. -/
theorem snbaseTouchedOnlyByItsCommands : Obligations.SnbaseTouchedOnlyByItsCommands := by
  constructor
  · intro i s v st r b hrd hwr hcmp hreset h
    have hi : usesSnbase i = false := by
      cases i with
      | csrRd c => exact absurd rfl (hrd c)
      | csrWr c x => exact absurd rfl (hwr c x)
      | snCmp x y => exact absurd rfl (hcmp x y)
      | sysReset => exact absurd rfl hreset
      | _ => rfl
    exact (exec_withSnbase hi s v).trans (congrArg (outcomeWithSnbase v) h)
  · rintro c x y s st r b (h | h) <;> obtain rfl | ⟨-, update⟩ := exec_answered h
    · rfl
    · cases update
    · rfl
    · cases update

/-! ### The reader's cursor -/

/-- The updates that move the cursor (R26). -/
theorem BlockUpdate.rpos_cases {i : Instr} {s : State} {b : Block} (h : BlockUpdate s i b) :
    b.rpos = s.blk.rpos ∨
      (∃ w : Word, i = .brRead w ∧ b.rpos = s.blk.rpos + w.toNat) ∨
      (b.rpos = 0 ∧ (i = .brReset ∨ i = .bufClear .rxb ∨ i = .sysReset)) ∨
      (∃ d, i = .pduDes ∧ des s.params.nackCap s.blk.rxb = .ok d ∧ b.rpos = 8 * d.hlen) ∨
      (∃ d, i = .hbDetach ∧ des s.params.nackCap s.blk.pkt = .ok d ∧ b.rpos = 8 * d.hlen) := by
  cases h with
  | brRead w => exact .inr (.inl ⟨w, rfl, rfl⟩)
  | sysReset | brReset | bufClearRxb => exact .inr (.inr (.inl ⟨rfl, by simp⟩))
  | pduDes d decoded => exact .inr (.inr (.inr (.inl ⟨d, rfl, decoded, rfl⟩)))
  | hbDetach d decoded => exact .inr (.inr (.inr (.inr ⟨d, rfl, decoded, rfl⟩)))
  | _ => exact .inl rfl

/-- `BR.READ` of a legal width with bits enough left. -/
theorem exec_brRead_of_left {s : State} {w : Word} (h1 : 1 ≤ w.toNat) (h32 : w.toNat ≤ 32)
    (left : s.blk.rpos + w.toNat ≤ 8 * s.blk.rxb.length) :
    exec (.brRead w) s = .next (answered s .ok (BitVec.ofNat 32 (field s.blk.rxb s.blk.rpos w.toNat))
      { s.blk with rpos := s.blk.rpos + w.toNat }) := by
  obtain ⟨hw, _⟩ | ⟨_, ⟨short, _⟩ | ⟨_, e⟩⟩ := execBrRead_cases w s
  · exact absurd ⟨h1, h32⟩ hw
  · exact absurd left (Nat.not_le.mpr short)
  · exact e

/-- Bit `w - 1 - k` of a field's value is its `k`-th bit in stream order. -/
theorem field_word_getLsbD (buf : List Byte) (p : Nat) {w k : Nat} (hw : w ≤ 32) (hk : k < w) :
    (BitVec.ofNat 32 (field buf p w)).getLsbD (w - 1 - k) = bitAt buf (p + k) := by
  rw [BitVec.getLsbD_ofNat, field, bitsValue_testBit, Nat.sub_sub_self (Nat.le_sub_one_of_lt hk)]
  simp [show w - 1 - k < 32 by omega, show w - 1 - k < w by omega]

theorem exec_pduDes_of_decoded {s : State} {d : Decoded} (h : des s.params.nackCap s.blk.rxb = .ok d) :
    exec .pduDes s = .next (answered s .ok (countWord d.hlen)
      ((s.blk.setPdu d.ack d.nacks).bindReader s.blk.rxb (8 * d.hlen))) := by
  simp only [exec, execPduDes, h, respond_eq]

theorem exec_hbDetach_of_decoded {s : State} {d : Decoded} (h : des s.params.nackCap s.blk.pkt = .ok d) :
    exec .hbDetach s = .next (answered s .ok (countWord d.hlen)
      (((s.blk.bindReader s.blk.pkt (8 * d.hlen)).setPdu d.ack d.nacks).dropPkt d.hlen)) := by
  simp only [exec, execHbDetach, h, respond_eq]

/-- Settles O17: the cursor through an update, case by case; then the commands of R26 run one by one. -/
theorem readerCursorMoves : Obligations.ReaderCursorMoves := by
  refine ⟨fun i s st r b h => ?_, fun s w h1 h32 left => ?_, fun s => ?_, fun s d hd => ?_,
    fun s d hd => ?_, fun s => ?_⟩
  · obtain rfl | ⟨rfl, update⟩ := exec_answered h
    · exact ⟨id, .inl rfl⟩
    · exact ⟨update.rpos_le, by simpa using update.rpos_cases⟩
  · exact ⟨_, exec_brRead_of_left h1 h32 left, field_word_getLsbD (k := 0) _ _ h32 h1⟩
  · exact ⟨respond_eq s _ 0, respond_eq s _ 0, Block.reset, respond_eq s _ 0, rfl⟩
  · exact ⟨_, _, exec_pduDes_of_decoded hd, rfl⟩
  · exact ⟨_, _, exec_hbDetach_of_decoded hd, rfl⟩
  · exact exec_csrRd_of_value rfl

/-! ### The flag and the PDU registers -/

section

variable {i : Instr} {s : State} {b : Block} (h : BlockUpdate s i b)

include h

/-- The updates that write the finished flag (R23). -/
theorem BlockUpdate.wfin_cases :
    b.wfin = s.blk.wfin ∨ (b.wfin = false ∧ (i = .bwReset ∨ i = .sysReset)) ∨
      (b.wfin = true ∧ (i = .bwFinish ∨ i = .pduSer ∨ i = .hbAttach)) := by
  cases h with
  | bwReset | sysReset => exact .inr (.inl ⟨rfl, by simp⟩)
  | bwFinish | pduSer | hbAttach => exact .inr (.inr ⟨rfl, by simp⟩)
  | _ => exact .inl rfl

/-- The updates that write `ACK` (R28). -/
theorem BlockUpdate.ack_cases :
    b.ack = s.blk.ack ∨ (∃ raw, i = .pduSetack raw) ∨
      i = .pduClear ∨ i = .pduDes ∨ i = .hbDetach ∨ i = .sysReset := by
  cases h with
  | pduSetack raw => exact .inr (.inl ⟨raw, rfl⟩)
  | pduClear | pduDes | hbDetach | sysReset => exact .inr (.inr (by simp))
  | _ => exact .inl rfl

/-- The updates that write `NACKQ` (R29). -/
theorem BlockUpdate.nackq_cases :
    b.nackq = s.blk.nackq ∨ (∃ raw x, i = .pduPushnack raw ∧ b.nackq = s.blk.nackq ++ [x]) ∨
      (i = .pduPopnack ∧ b.nackq = s.blk.nackq.tail) ∨
      (b.nackq = [] ∧ (i = .pduClear ∨ i = .sysReset)) ∨ i = .pduDes ∨ i = .hbDetach := by
  cases h with
  | pduPushnack raw => exact .inr (.inl ⟨raw, _, rfl, rfl⟩)
  | pduPopnack => exact .inr (.inr (.inl ⟨rfl, rfl⟩))
  | pduClear | sysReset => exact .inr (.inr (.inr (.inl ⟨rfl, by simp⟩)))
  | pduDes | hbDetach => exact .inr (.inr (.inr (.inr (by simp))))
  | _ => exact .inl rfl

end

/-- Settles O18: the updates of each of the three items, one by one. -/
theorem flagAndPduRegistersWrittenOnlyByTheirCommands :
    Obligations.FlagAndPduRegistersWrittenOnlyByTheirCommands := by
  intro i s st r b h
  obtain rfl | ⟨-, update⟩ := exec_answered h
  · exact ⟨.inl rfl, .inl rfl, .inl rfl⟩
  · exact ⟨update.wfin_cases, update.ack_cases, update.nackq_cases⟩

end Sys2Proof.Proofs

/-! PROOFS. The statements about memory: how the three buffers change, and the buffer commands
`BUF.CLEAR`, `BUF.LD` and `BUF.LEN` (spec/20_memory.md R41, R44, spec/45_system_and_buffer.md R143, R145,
R146). -/

namespace Sys2Proof.Proofs

open Sys2Proof.Machine Sys2Proof.Safety

/-! ### How the buffers change -/

section

variable {i : Instr} {s : State} {b : Block} (h : BlockUpdate s i b)

include h

/-- The updates that write `WBITS` (R44). -/
theorem BlockUpdate.wbits_cases :
    b.wbits = s.blk.wbits ∨ (b.wbits = [] ∧ (i = .bwReset ∨ i = .sysReset)) ∨
      (∃ w v : Word, i = .bwWrite w v ∧ ∃ bits, b.wbits = s.blk.wbits ++ bits) ∨
      (b.wbits = serBits s.blk.ack s.blk.nackq ∧ (i = .pduSer ∨ i = .hbAttach)) := by
  cases h with
  | bwReset | sysReset => exact .inr (.inl ⟨rfl, by simp⟩)
  | bwWrite w v => exact .inr (.inr (.inl ⟨w, v, rfl, _, rfl⟩))
  | pduSer | hbAttach => exact .inr (.inr (.inr ⟨rfl, by simp⟩))
  | _ => exact .inl rfl

/-- The updates that write `RXB` (R44). -/
theorem BlockUpdate.rxb_cases :
    b.rxb = s.blk.rxb ∨ (∃ x y, i = .bufAppend .rxb x ∧ b.rxb = s.blk.rxb ++ [y]) ∨
      (b.rxb = [] ∧ (i = .bufClear .rxb ∨ i = .sysReset)) ∨ (b.rxb = s.blk.pkt ∧ i = .hbDetach) := by
  cases h with
  | bufAppendRxb x => exact .inr (.inl ⟨x, _, rfl, rfl⟩)
  | bufClearRxb | sysReset => exact .inr (.inr (.inl ⟨rfl, by simp⟩))
  | hbDetach => exact .inr (.inr (.inr ⟨rfl, rfl⟩))
  | _ => exact .inl rfl

/-- The updates that write `PKT` (R44). -/
theorem BlockUpdate.pkt_cases :
    b.pkt = s.blk.pkt ∨ (∃ x y, i = .bufAppend .pkt x ∧ b.pkt = s.blk.pkt ++ [y]) ∨
      (b.pkt = [] ∧ (i = .bufClear .pkt ∨ i = .sysReset)) ∨
      (i = .hbAttach ∧ ∃ hdr, b.pkt = hdr ++ s.blk.pkt) ∨
      (i = .hbDetach ∧ ∃ n, b.pkt = s.blk.pkt.drop n) := by
  cases h with
  | bufAppendPkt x => exact .inr (.inl ⟨x, _, rfl, rfl⟩)
  | bufClearPkt | sysReset => exact .inr (.inr (.inl ⟨rfl, by simp⟩))
  | hbAttach => exact .inr (.inr (.inr (.inl ⟨rfl, _, rfl⟩)))
  | hbDetach d => exact .inr (.inr (.inr (.inr ⟨rfl, d.hlen, rfl⟩)))
  | _ => exact .inl rfl

end

/-- Bits added at the end leave the bits before them where they were, those of the last byte included. -/
theorem bitAt_pack_append {bits : List Bool} (more : List Bool) {k : Nat} (hk : k < bits.length) :
    bitAt (pack (bits ++ more)) k = bitAt (pack bits) k := by
  rw [bitAt_pack, bitAt_pack, List.getD_append _ _ _ _ hk]

/-- Settles O16: the updates of each buffer, one by one; `BW.WRITE`'s update is an append. -/
theorem buffersChangeOnlyInTheirWays : Obligations.BuffersChangeOnlyInTheirWays := by
  intro i s st r b h
  obtain rfl | ⟨-, update⟩ := exec_answered h
  · exact ⟨.inl rfl, .inl rfl, .inl rfl, fun _ _ _ => rfl⟩
  · refine ⟨update.wbits_cases, update.rxb_cases, update.pkt_cases, ?_⟩
    rintro ⟨w, v, rfl⟩ k hk
    cases update with
    | bwWrite => exact bitAt_pack_append _ hk

/-! ### `BUF.CLEAR` -/

/-- Settles O57: `RXB` and `PKT` are the two spaces that the host may write (R41). -/
theorem bufClearEmptiesTheSpace : Obligations.BufClearEmptiesTheSpace := by
  refine fun s => ⟨respond_eq s _ 0, respond_eq s _ 0, fun sp hrxb hpkt => ?_⟩
  cases sp with
  | rxb => exact absurd rfl hrxb
  | pkt => exact absurd rfl hpkt
  | txb | absent n => exact raise_eq _ s

/-! ### `BUF.LD` and `BUF.LEN` -/

section

variable {s : State} {sp : Space}

theorem readableSpace_absent (b : Block) (n : Word) :
    readableSpace b (.absent n) = .error .illegalCommand :=
  readableSpace_error.mpr (.inr ⟨⟨n, rfl⟩, rfl⟩)

theorem readableSpace_txb_of_open {b : Block} (h : b.wfin = false) :
    readableSpace b .txb = .error .illegalState :=
  readableSpace_error.mpr (.inl ⟨rfl, h, rfl⟩)

theorem exec_bufLd_of_unreadable {f : Failure} (x : Word) (h : readableSpace s.blk sp = .error f) :
    exec (.bufLd sp x) s = .next (answered s (.fail f) 0 s.blk) := by
  simp only [exec, execBufLd, h, raise_eq]

theorem exec_bufLd_of_length_le {buf : List Byte} {x : Word} (h : readableSpace s.blk sp = .ok buf)
    (hx : buf.length ≤ x.toNat) :
    exec (.bufLd sp x) s = .next (answered s (.fail .indexOutOfRange) 0 s.blk) := by
  simp only [exec, execBufLd, h, List.getElem?_eq_none hx, raise_eq]

theorem exec_bufLd_of_lt_length {buf : List Byte} {x : Word} (h : readableSpace s.blk sp = .ok buf)
    (hx : x.toNat < buf.length) :
    exec (.bufLd sp x) s = .next (answered s .ok (BitVec.ofNat 32 buf[x.toNat].toNat) s.blk) := by
  simp only [exec, execBufLd, h, List.getElem?_eq_getElem hx, respond_eq, BitVec.ofNat_toNat]

theorem exec_bufLen_of_unreadable {f : Failure} (h : readableSpace s.blk sp = .error f) :
    exec (.bufLen sp) s = .next (answered s (.fail f) 0 s.blk) := by
  simp only [exec, execBufLen, h, raise_eq]

theorem exec_bufLen_of_readable {buf : List Byte} (h : readableSpace s.blk sp = .ok buf) :
    exec (.bufLen sp) s = .next (answered s .ok (countWord buf.length) s.blk) := by
  simp only [exec, execBufLen, h, respond_eq]

end

/-- Settles O59: the space is unreadable, or readable and the index at or beyond its length, or within. -/
theorem bufLdReadsTheByte : Obligations.BufLdReadsTheByte := by
  refine fun s x => ⟨fun n => ?_, fun hopen => ?_, fun sp buf hsp => ?_⟩
  · exact exec_bufLd_of_unreadable x (readableSpace_absent s.blk n)
  · exact exec_bufLd_of_unreadable x (readableSpace_txb_of_open hopen)
  · have hbuf := readableSpace_ok.mpr hsp
    exact ⟨exec_bufLd_of_length_le hbuf, exec_bufLd_of_lt_length hbuf⟩

/-- Settles O60: the space is unreadable, or readable with its length as a 32-bit count. -/
theorem bufLenReadsTheLength : Obligations.BufLenReadsTheLength := by
  refine fun s => ⟨fun n => ?_, fun hopen => ?_, fun sp buf hsp => ?_⟩
  · exact exec_bufLen_of_unreadable (readableSpace_absent s.blk n)
  · exact exec_bufLen_of_unreadable (readableSpace_txb_of_open hopen)
  · rw [← countWord_eq_ofNat_mod]
    exact exec_bufLen_of_readable (readableSpace_ok.mpr hsp)

end Sys2Proof.Proofs

/-! PROOFS. The statements about the command word (spec/30_encoding.md R70 to R76): the decoder against the
encoder, the opcode map, the ignored fields and the reserved opcodes. -/

namespace Sys2Proof.Proofs

open Sys2Proof.Machine Sys2Proof.Safety

/-! ### The decoder on an encoded command -/

/-- The decoder gets a well-formed command back from its opcode and its operands. -/
theorem decodeFields_operands {i : Instr} (h : i.wellFormed = true) :
    decodeFields i.opcode i.operandA i.operandB = .ok i := by
  cases i with
  | csrRd csr => exact congrArg (fun c => Except.ok (Instr.csrRd c)) (csrOf_csrNumber h)
  | csrWr csr v => exact congrArg (fun c => Except.ok (Instr.csrWr c v)) (csrOf_csrNumber h)
  | bufClear sp => exact congrArg (fun c => Except.ok (Instr.bufClear c)) (spaceOf_spaceNumber h)
  | bufAppend sp x => exact congrArg (fun c => Except.ok (Instr.bufAppend c x)) (spaceOf_spaceNumber h)
  | bufLd sp x => exact congrArg (fun c => Except.ok (Instr.bufLd c x)) (spaceOf_spaceNumber h)
  | bufLen sp => exact congrArg (fun c => Except.ok (Instr.bufLen c)) (spaceOf_spaceNumber h)
  | _ => rfl

/-- Settles O1: the word's fields are the command's opcode and operands, and a well-formed selector is the
one its number selects. -/
theorem decodeEncodeRoundTrip : Obligations.DecodeEncodeRoundTrip := by
  intro i h
  rw [encode, decode_commandWord, decodeFields_operands h]

/-! ### What a word decodes to -/

/-- The decoder either gives a well-formed command with the opcode it was given, or reports that opcode as
reserved. -/
theorem decodeFields_cases (op : Opcode) (a b : Word) :
    (∃ i, decodeFields op a b = .ok i ∧ i.wellFormed = true ∧ i.opcode = op) ∨
      decodeFields op a b = .error (.reservedOpcode op) := by
  unfold decodeFields
  split
  case h_27 => exact .inr rfl
  all_goals
    next hop =>
      exact .inl ⟨_, rfl, by simp [Instr.wellFormed, csrOf_wellFormed, spaceOf_wellFormed],
        (BitVec.eq_of_toNat_eq hop).symm⟩

theorem decode_ok {cw : CommandWord} {i : Instr} (h : decode cw = .ok i) :
    i.wellFormed = true ∧ i.opcode = opField cw := by
  obtain ⟨j, hj, hwf, hop⟩ | he := decodeFields_cases (opField cw) (aField cw) (bField cw)
  · obtain rfl : j = i := Except.ok.inj (hj.symm.trans h)
    exact ⟨hwf, hop⟩
  · exact nomatch he.symm.trans h

/-! ### Ignored fields -/

/-- Settles O3: the rows of R71's table that name no `A`, those that name no `B`, and what every row gives. -/
theorem ignoredFieldsAreDontCare : Obligations.IgnoredFieldsAreDontCare := by
  refine ⟨fun op a a' b hop => ?_, fun op a b b' hop => ?_, fun cw i h => ?_⟩
  · rw [decode_commandWord, decode_commandWord]
    fin_cases hop <;> rfl
  · rw [decode_commandWord, decode_commandWord]
    fin_cases hop <;> rfl
  · obtain ⟨hwf, hop⟩ := decode_ok h
    exact ⟨hwf, hop, decodeEncodeRoundTrip i hwf⟩

/-! ### Defined and reserved opcodes -/

theorem opcode_mem_definedOpcodes (i : Instr) : i.opcode ∈ definedOpcodes := by
  cases i <;> simp [Instr.opcode, definedOpcodes]

theorem decode_of_mem_definedOpcodes {cw : CommandWord} (h : opField cw ∈ definedOpcodes) :
    ∃ i, decode cw = .ok i := by
  unfold decode
  generalize opField cw = op at h ⊢
  fin_cases h <;> exact ⟨_, rfl⟩

theorem decode_of_notMem_definedOpcodes {cw : CommandWord} (h : opField cw ∉ definedOpcodes) :
    decode cw = .error (.reservedOpcode (opField cw)) := by
  obtain ⟨i, -, -, hop⟩ | he := decodeFields_cases (opField cw) (aField cw) (bField cw)
  · exact absurd (hop ▸ opcode_mem_definedOpcodes i) h
  · exact he

theorem step_of_decode_error {s : State} {cw : CommandWord} {rest : List CommandWord} {e : DecodeError}
    (hr : s.requests = cw :: rest) (hd : decode cw = .error e) :
    step s = .next (answered { s with requests := rest } (.fail .illegalCommand) 0 s.blk) := by
  simp only [step, fetch_cons hr, hd, rejectWord_eq_raise, raise_eq]

/-- As numbers, the opcode values in R71's table are the table's first column. -/
theorem filter_mem_definedOpcodes_perm :
    ((List.range 256).filter fun n => decide (BitVec.ofNat 8 n ∈ definedOpcodes)).Perm
      (definedOpcodes.map BitVec.toNat) := by
  rw [List.perm_ext_iff_of_nodup (List.nodup_range.filter _) (by decide)]
  intro n
  simp only [List.mem_filter, List.mem_range, decide_eq_true_eq, List.mem_map]
  constructor
  · rintro ⟨hn, hop⟩
    exact ⟨_, hop, (BitVec.toNat_ofNat _ _).trans (Nat.mod_eq_of_lt hn)⟩
  · rintro ⟨op, hop, rfl⟩
    exact ⟨op.isLt, by rwa [BitVec.ofNat_toNat, BitVec.setWidth_eq]⟩

/-- 26 of the 256 values are in the table, the other 230 are not. -/
theorem reserved_count :
    ((List.range 256).filter fun n => decide (BitVec.ofNat 8 n ∉ definedOpcodes)).length = 230 := by
  have htotal := List.length_eq_length_filter_add (l := List.range 256)
    fun n => decide (BitVec.ofNat 8 n ∈ definedOpcodes)
  have hdefined := filter_mem_definedOpcodes_perm.length_eq.trans
    (show (definedOpcodes.map BitVec.toNat).length = 26 from rfl)
  rw [List.length_range, hdefined] at htotal
  simp only [decide_not]
  omega

/-- Settles O4: the table's opcodes are those of some command, the rest falls through to the rejection,
which the step answers; the reserved values are counted. -/
theorem reservedOpcodesAnswerIllegalCommand : Obligations.ReservedOpcodesAnswerIllegalCommand := by
  refine ⟨fun cw h => decode_of_mem_definedOpcodes h, fun s cw rest hr h => ?_, reserved_count⟩
  have hd := decode_of_notMem_definedOpcodes h
  exact ⟨hd, step_of_decode_error hr hd⟩

/-! ### The opcode map -/

theorem csrOf_of_four_le {a : Word} (h : 4 ≤ a.toNat) : csrOf a = .absent a :=
  csrOf_csrNumber (c := .absent a) (decide_eq_true h)

theorem spaceOf_of_three_le {a : Word} (h : 3 ≤ a.toNat) : spaceOf a = .absent a :=
  spaceOf_spaceNumber (c := .absent a) (decide_eq_true h)

/-- Settles O2: R71's table row by row; a number that selects nothing is kept as it is. -/
theorem opcodeMapDecodes : Obligations.OpcodeMapDecodes := by
  intro a b
  simp only [decode_commandWord]
  have hcsr := csrOf_of_four_le (a := a)
  have hspace := spaceOf_of_three_le (a := a)
  exact ⟨rfl,
    rfl, rfl, rfl, rfl, fun h => congrArg (fun c => Except.ok (Instr.csrRd c)) (hcsr h),
    rfl, rfl, rfl, rfl, fun h => congrArg (fun c => Except.ok (Instr.csrWr c b)) (hcsr h),
    rfl, rfl, rfl, rfl,
    rfl, rfl, rfl,
    rfl, rfl, rfl,
    rfl, rfl, rfl, rfl, rfl, rfl, rfl,
    rfl, rfl,
    rfl, rfl, rfl, fun h => congrArg (fun c => Except.ok (Instr.bufClear c)) (hspace h),
    rfl, rfl, rfl, fun h => congrArg (fun c => Except.ok (Instr.bufAppend c b)) (hspace h),
    rfl, rfl, rfl, fun h => congrArg (fun c => Except.ok (Instr.bufLd c b)) (hspace h),
    rfl, rfl, rfl, fun h => congrArg (fun c => Except.ok (Instr.bufLen c)) (hspace h)⟩

/-- Settles O5: each worked word is the encoding of its well-formed command (R76), and decoding undoes
encoding. -/
theorem workedEncodingsDecode : Obligations.WorkedEncodingsDecode := by
  intro p hp
  have h : p.1 = encode p.2 ∧ p.2.wellFormed = true := by
    revert p
    decide
  obtain ⟨hword, hwf⟩ := h
  rw [hword, decodeEncodeRoundTrip p.2 hwf]

end Sys2Proof.Proofs

/-! PROOFS. The statements about the encoded STATUS PDU (spec/30_encoding.md R61 to R64): its layout bit by
bit, its length, and its padding. -/

namespace Sys2Proof.Proofs

open Sys2Proof.Machine Sys2Proof.Safety

/-! ### The encoded stream, cut at an E1 bit -/

/-- What the encoder writes in front of the E1 bit that follows the entries `nacks`. -/
def pduFront (ack : Residue) (nacks : List Residue) : List Bool :=
  msb 0 1 ++ msb 0 3 ++ msb ack.toNat 10 ++ nacks.flatMap entryBits

/-- The E1 chain from an E1 bit on, with the entries `nacks` still to come. -/
def e1Chain (nacks : List Residue) : List Bool := nacks.flatMap entryBits ++ [false]

theorem serBits_append (ack : Residue) (done rest : List Residue) :
    serBits ack (done ++ rest) = pduFront ack done ++ e1Chain rest := by
  simp only [serBits, pduFront, e1Chain, List.flatMap_append, List.append_assoc]
  rfl

@[simp] theorem pduFront_length (ack : Residue) (nacks : List Residue) :
    (pduFront ack nacks).length = 14 + 11 * nacks.length := by
  simp only [pduFront, List.length_append, msb_length, flatMap_entryBits_length]

theorem e1Chain_cons (nack : Residue) (rest : List Residue) :
    e1Chain (nack :: rest) = [true] ++ msb nack.toNat 10 ++ e1Chain rest := by
  simp only [e1Chain, List.flatMap_cons, List.append_assoc]
  rfl

/-- The first bit of a chain is 1 exactly when an entry follows. -/
theorem e1Chain_getD_zero (rest : List Residue) :
    (e1Chain rest).getD 0 false = decide (0 < rest.length) := by
  cases rest with
  | nil => rfl
  | cons nack rest => simp [e1Chain_cons]

/-! ### The fields of the encoded PDU -/

section

variable (ack : Residue) (nacks : List Residue)

theorem ser_discriminator : bitAt (ser ack nacks) 0 = false := by
  rw [ser, bitAt_pack]
  rfl

theorem ser_controlType : field (ser ack nacks) 1 3 = 0 := by
  rw [ser, serBits_split]
  exact field_pack_msb (msb 0 1) _ (v := 0) (w := 3) (by decide)

theorem ser_ack : field (ser ack nacks) 4 10 = ack.toNat := by
  rw [ser, serBits_split]
  exact field_pack_msb (msb 0 1 ++ msb 0 3) _ ack.isLt

/-- The E1 bit after `k` entries is 1 exactly when another entry follows (R63). -/
theorem ser_e1 {k : Nat} (hk : k ≤ nacks.length) :
    bitAt (ser ack nacks) (14 + 11 * k) = decide (k < nacks.length) := by
  have hfront : (pduFront ack (nacks.take k)).length = 14 + 11 * k := by
    rw [pduFront_length, List.length_take_of_le hk]
  have hbits := serBits_append ack (nacks.take k) (nacks.drop k)
  rw [List.take_append_drop] at hbits
  rw [ser, bitAt_pack, hbits, List.getD_append_right _ _ _ _ hfront.le, hfront, Nat.sub_self,
    e1Chain_getD_zero, List.length_drop, decide_eq_decide]
  omega

/-- Entry `k` stands right after its E1 bit. -/
theorem ser_entry {k : Nat} (hk : k < nacks.length) :
    field (ser ack nacks) (15 + 11 * k) 10 = nacks[k].toNat := by
  have hfront : (pduFront ack (nacks.take k) ++ [true]).length = 15 + 11 * k := by
    simp only [List.length_append, pduFront_length, List.length_take_of_le hk.le, List.length_singleton]
    omega
  have hbits := serBits_append ack (nacks.take k) (nacks[k] :: nacks.drop (k + 1))
  rw [← List.drop_eq_getElem_cons hk, List.take_append_drop, List.drop_eq_getElem_cons hk, e1Chain_cons,
    ← List.append_assoc, ← List.append_assoc] at hbits
  rw [ser, hbits, ← hfront]
  exact field_pack_msb _ _ nacks[k].isLt

theorem ser_padding {i : Nat} (hi : 15 + 11 * nacks.length ≤ i) : bitAt (ser ack nacks) i = false := by
  rw [ser, bitAt_pack, List.getD_eq_default]
  rwa [serBits_length, pduBits_eq]

theorem ser_length_eq : (ser ack nacks).length = (15 + 11 * nacks.length + 7) / 8 := by
  rw [ser_length, pduBytes, pduBits_eq, bytesFor]

end

/-- Settles O41: the header, `ack` and the entries stand at their places, and the E1 bits after them. -/
theorem encodedPduHasTheWireLayout : Obligations.EncodedPduHasTheWireLayout := by
  intro ack nacks
  refine ⟨ser_discriminator ack nacks, ser_controlType ack nacks, ser_ack ack nacks,
    ser_e1 ack nacks (Nat.zero_le _), fun k hk => ⟨ser_entry ack nacks hk, ?_⟩,
    fun i hi _ => ser_padding ack nacks hi, ser_length_eq ack nacks⟩
  rw [show 25 + 11 * k = 14 + 11 * (k + 1) by omega]
  exact ser_e1 ack nacks hk

/-- Settles O42: the length of the stream, and arithmetic. -/
theorem encodedPduHasItsLength : Obligations.EncodedPduHasItsLength := by
  refine ⟨fun ack nacks => ?_, fun n => by omega, by decide⟩
  have hbits : (serBits ack nacks).length = 15 + 11 * nacks.length := serBits_length ack nacks
  have hbytes := ser_length_eq ack nacks
  refine ⟨hbits, hbytes, by omega, ?_, by omega⟩
  rintro rfl
  exact ⟨hbits, hbytes⟩

/-! ### When the decoder succeeds -/

/-- The loop reads a whole E1 chain that fits the buffer and the queue (the converse of `desChain_ok`). -/
theorem desChain_of_chain {cap : Option Nat} {buf : List Byte} {fuel p : Nat} {nacks more : List Residue}
    (hfuel : 8 * buf.length ≤ p + 11 * fuel)
    (hroom : p + 11 * more.length + 1 ≤ 8 * buf.length)
    (hentry : ∀ k (hk : k < more.length),
      bitAt buf (p + 11 * k) = true ∧ more[k] = snField buf (p + 11 * k + 1))
    (hend : bitAt buf (p + 11 * more.length) = false)
    (hcap : overCap cap (nacks.length + more.length) = false) :
    desChain cap buf fuel p nacks = .ok (nacks ++ more, p + 11 * more.length + 1) := by
  induction more generalizing fuel p nacks with
  | nil =>
    rw [desChain_unfold _ _ _ _ _ hfuel, if_neg (by simpa using hroom), if_pos (by simpa using hend)]
    simp
  | cons n ns ih =>
    rw [List.length_cons] at hroom hend hcap
    obtain ⟨he1, hn⟩ := hentry 0 (by simp)
    have hnext : p + 11 * (ns.length + 1) = p + 11 + 11 * ns.length := by omega
    have hstep : desChain cap buf (fuel - 1) (p + 11) (nacks ++ [n]) =
        .ok (nacks ++ [n] ++ ns, p + 11 + 11 * ns.length + 1) := by
      apply ih
      · omega
      · omega
      · intro k hk
        have := hentry (k + 1) (by simpa using hk)
        rwa [show p + 11 * (k + 1) = p + 11 + 11 * k by omega] at this
      · rwa [← hnext]
      · rwa [List.length_append, List.length_singleton, Nat.add_right_comm, Nat.add_assoc]
    rw [desChain_unfold _ _ _ _ _ hfuel, if_neg (by omega), if_neg (by simpa using he1),
      if_neg (by omega), if_neg (by simp [overCap_mono hcap (show nacks.length + 1 ≤ _ by omega)])]
    simpa [hnext, ← hn] using hstep

/-- What a buffer holds when it decodes to `d` (R118): a zero header, the acknowledgment, and a whole E1
chain within the buffer, with no more entries than the queue can hold. -/
structure Carries (cap : Option Nat) (buf : List Byte) (d : Decoded) : Prop where
  long : 2 ≤ buf.length
  header : field buf 0 4 = 0
  ack : d.ack = snField buf 4
  entry : ∀ k (hk : k < d.nacks.length),
    bitAt buf (14 + 11 * k) = true ∧ d.nacks[k] = snField buf (15 + 11 * k)
  finalE1 : bitAt buf (14 + 11 * d.nacks.length) = false
  whole : 15 + 11 * d.nacks.length ≤ 8 * buf.length
  fits : overCap cap d.nacks.length = false
  hlen : d.hlen = (15 + 11 * d.nacks.length + 7) / 8

theorem des_eq_ok_iff {cap : Option Nat} {buf : List Byte} {d : Decoded} :
    des cap buf = .ok d ↔ Carries cap buf d := by
  constructor
  · intro h
    obtain ⟨long, header, ack, hlen, whole, entry, finalE1, -⟩ := des_ok h
    exact ⟨long, header, ack, entry, finalE1, whole, des_ok_nacks_fit h, hlen⟩
  · intro h
    have hchain : desChain cap buf buf.length 14 [] = .ok ([] ++ d.nacks, 14 + 11 * d.nacks.length + 1) := by
      apply desChain_of_chain
      · omega
      · have := h.whole
        omega
      · intro k hk
        rw [show 14 + 11 * k + 1 = 15 + 11 * k by omega]
        exact h.entry k hk
      · exact h.finalE1
      · simpa using h.fits
    have hlen : bytesFor (14 + 11 * d.nacks.length + 1) = d.hlen := by
      rw [h.hlen, bytesFor]
      omega
    rw [des, if_neg (not_lt.mpr h.long), if_neg (not_not.mpr h.header), hchain]
    simp only [List.nil_append, hlen, ← h.ack]

/-- The padding and the bytes after it play no part: only the bits up to the final E1 do. -/
theorem Carries.of_bitAt_eq {cap : Option Nat} {a b : List Byte} {d : Decoded} (h : Carries cap a d)
    (hlen : d.hlen ≤ b.length) (hbits : ∀ i < 15 + 11 * d.nacks.length, bitAt b i = bitAt a i) :
    Carries cap b d := by
  have hfield : ∀ p w, p + w ≤ 15 + 11 * d.nacks.length → field b p w = field a p w :=
    fun p w hpw => field_congr fun k hk => hbits _ (by omega)
  have hsnField : ∀ p, p + 10 ≤ 15 + 11 * d.nacks.length → snField b p = snField a p :=
    fun p hp => congrArg (BitVec.ofNat 10) (hfield p 10 hp)
  have hhlen := h.hlen
  refine ⟨by omega, ?_, ?_, fun k hk => ?_, ?_, by omega, h.fits, hhlen⟩
  · rw [hfield 0 4 (by omega), h.header]
  · rw [hsnField 4 (by omega), h.ack]
  · rw [hbits _ (by omega), hsnField _ (by omega)]
    exact h.entry k hk
  · rw [hbits _ (by omega), h.finalE1]

/-- Settles O48: the encoder's padding bits lie beyond its stream, and what the decoder has read lies before
the padding. -/
theorem paddingIsZeroAndNotChecked : Obligations.PaddingIsZeroAndNotChecked := by
  refine ⟨fun ack nacks i hi _ => ser_padding ack nacks hi, fun cap a b d h hlen hbits => ?_⟩
  exact des_eq_ok_iff.mpr ((des_eq_ok_iff.mp h).of_bitAt_eq hlen hbits)

end Sys2Proof.Proofs

/-! PROOFS. The statements about the sequence-number unit (spec/40_sequence_number.md R80 to R86). -/

namespace Sys2Proof.Proofs

open Sys2Proof.Machine Sys2Proof.Safety

/-! ### The order from a base -/

/-- Distances from one base tell residues apart. -/
theorem distance_inj {base a b : Residue} : (a - base).toNat = (b - base).toNat ↔ a = b :=
  BitVec.toNat_inj.trans sub_left_inj

/-- The base is the least element: its distance is 0, and no other residue has that distance. -/
theorem snCmp_base_lt {base a : Residue} (h : a ≠ base) : snCmp base base a = .lt := by
  have hself : (base - base).toNat = 0 := by simp
  have hne : (a - base).toNat ≠ (base - base).toNat := mt distance_inj.mp h
  rw [snCmp_lt_iff]
  omega

/-- `base - 1` is the greatest element: its distance is 1023, and no other residue has that distance. -/
theorem snCmp_lt_pred_base {base a : Residue} (h : a ≠ base - 1) : snCmp base a (base - 1) = .lt := by
  have hpred : (base - 1 - base).toNat = 1023 := by
    rw [sub_sub_cancel_left]
    rfl
  have hne : (a - base).toNat ≠ (base - 1 - base).toNat := mt distance_inj.mp h
  have hlt : (a - base).toNat < 1024 := (a - base).isLt
  rw [snCmp_lt_iff]
  omega

/-- Settles O23: the comparator orders residues by their distances from the base, which are numbers. -/
theorem comparatorIsATotalOrderFromItsBase : Obligations.ComparatorIsATotalOrderFromItsBase := by
  intro base a b c
  refine ⟨snCmp_eq_iff base a b, ?swap, ?trans, snCmp_base_lt, snCmp_lt_pred_base, ?numeric, ?relative⟩
  case swap => rw [snCmp_lt_iff, snCmp_gt_iff]
  case trans =>
    simp only [snCmp_lt_iff]
    exact Nat.lt_trans
  case numeric => rw [snCmp_lt_iff, sub_zero, sub_zero]
  case relative => rw [snCmp, snCmp, sub_zero, sub_zero]

/-! ### The result of `SN.CMP` -/

theorem exec_snCmp (a b : Word) (s : State) :
    exec (.snCmp a b) s =
      .next (answered s .ok (orderingWord (snCmp s.blk.snbase (create a) (create b))) s.blk) :=
  respond_eq s _ _

/-- The three words are distinct, so the word names the outcome. -/
theorem orderingWord_inj {o p : Ordering} : orderingWord o = orderingWord p ↔ o = p := by
  cases o <;> cases p <;> decide

theorem orderingWord_bit_gt {o : Ordering} : (orderingWord o).getLsbD 2 = false ↔ ¬ o = .gt := by
  cases o <;> decide

theorem orderingWord_bit_lt {o : Ordering} : (orderingWord o).getLsbD 0 = false ↔ ¬ o = .lt := by
  cases o <;> decide

/-- Settles O24: the one-hot word names the outcome, and the outcome compares the distances. -/
theorem predicatesReadOffTheComparison : Obligations.PredicatesReadOffTheComparison := by
  intro s a b r h
  obtain ⟨-, rfl, -⟩ := respond_answered.mp h
  refine ⟨?eq, ?lt, ?gt, ?notGreater, ?notLess⟩
  case eq => exact (orderingWord_inj (p := .eq)).trans (snCmp_eq_iff _ _ _)
  case lt => exact (orderingWord_inj (p := .lt)).trans (snCmp_lt_iff _ _ _)
  case gt => exact (orderingWord_inj (p := .gt)).trans (snCmp_gt_iff _ _ _)
  case notGreater => rw [orderingWord_bit_gt, snCmp_gt_iff, Nat.not_lt]
  case notLess => rw [orderingWord_bit_lt, snCmp_lt_iff, Nat.not_lt]

theorem distance_create_toNat (raw : Word) (base : Residue) :
    (create raw - base).toNat = (raw.toNat % 1024 + 1024 - base.toNat) % 1024 := by
  rw [residue_sub_toNat, create_toNat]

theorem orderingWord_snCmp (base a b : Residue) :
    orderingWord (snCmp base a b) =
      if (a - base).toNat < (b - base).toNat then 1
      else if (a - base).toNat = (b - base).toNat then 2 else 4 := by
  rw [snCmp, apply_ite orderingWord, apply_ite orderingWord]
  rfl

/-- Settles O22: the outcome compares the distances, and each outcome has its word. -/
theorem snCmpOrdersRelativeToSnbase : Obligations.SnCmpOrdersRelativeToSnbase := by
  rintro s a b _ _ rfl rfl
  rw [exec_snCmp, orderingWord_snCmp, distance_create_toNat, distance_create_toNat]

/-! ### The results of `SN.CREATE`, `SN.ADD` and `SN.SUB` -/

/-- Settles O19: the opcode's row, and the reduced operand as a number. -/
theorem snCreateReduces : Obligations.SnCreateReduces := by
  refine ⟨fun a b => by rw [decode_commandWord]; rfl, fun s raw => ?_⟩
  rw [← create_toNat, ← residueWord_eq_ofNat]
  exact respond_eq s _ _

theorem exec_snAdd (a delta : Word) (s : State) :
    exec (.snAdd a delta) s =
      .next (answered s .ok (BitVec.ofNat 32 ((a.toNat + delta.toNat) % 1024)) s.blk) := by
  have hsum : (BitVec.ofNat 10 (a.toNat + delta.toNat)).toNat = (a.toNat + delta.toNat) % 1024 :=
    BitVec.toNat_ofNat _ _
  rw [← hsum, ← residueWord_eq_ofNat]
  exact respond_eq s _ _

/-- Settles O20: `exec_snAdd`, and the library's law for the remainder of a sum. -/
theorem snAddIsTheSumModulo1024 : Obligations.SnAddIsTheSumModulo1024 :=
  fun s a delta => ⟨exec_snAdd a delta s, Nat.add_mod _ _ _⟩

/-- The floored remainder of a difference, as a remainder of natural numbers. -/
theorem floored_sub_mod (m n : Nat) :
    (((m + 1024 - n % 1024) % 1024 : Nat) : Int) = ((m : Int) - (n : Int)) % 1024 := by
  omega

theorem exec_snSub (a delta : Word) (s : State) :
    exec (.snSub a delta) s =
      .next (answered s .ok (BitVec.ofNat 32 ((a.toNat + 1024 - delta.toNat % 1024) % 1024)) s.blk) := by
  have hdiff : (BitVec.ofInt 10 ((a.toNat : Int) - (delta.toNat : Int))).toNat =
      (a.toNat + 1024 - delta.toNat % 1024) % 1024 := by
    rw [BitVec.toNat_ofInt]
    exact congrArg Int.toNat (floored_sub_mod a.toNat delta.toNat).symm
  rw [← hdiff, ← residueWord_eq_ofNat]
  exact respond_eq s _ _

/-- Settles O21: with `x = (a + delta) mod 1024`, the remainder of `x - delta` is that of `a`. -/
theorem snSubIsTheDifferenceModulo1024 : Obligations.SnSubIsTheDifferenceModulo1024 := by
  refine ⟨fun s a delta => ⟨exec_snSub a delta s, floored_sub_mod a.toNat delta.toNat⟩, ?undo⟩
  case undo =>
    intro s t a delta x y hadd hsub
    rw [exec_snAdd, Host.Outcome.next.injEq, answered_inj] at hadd
    rw [exec_snSub, Host.Outcome.next.injEq, answered_inj] at hsub
    obtain ⟨-, rfl, -⟩ := hadd
    obtain ⟨-, rfl, -⟩ := hsub
    simp only [BitVec.toNat_ofNat]
    omega

end Sys2Proof.Proofs

/-! PROOFS. The statements about the bit-stream writer (spec/41_bitstream_writer.md R91 to R94): its three
commands, then the laws of a sequence of writes. -/

namespace Sys2Proof.Proofs

open Sys2Proof.Machine Sys2Proof.Safety

/-! ### `BW.RESET` and `BW.FINISH` -/

/-- Settles O25: the command checks nothing. -/
theorem bwResetMakesAFreshWriter : Obligations.BwResetMakesAFreshWriter :=
  fun s => respond_eq s _ 0

theorem exec_bwFinish_of_finished {s : State} (hfin : s.blk.wfin = true) :
    exec .bwFinish s = .next (answered s (.fail .illegalState) 0 s.blk) := by
  rw [exec, execBwFinish, if_pos hfin, raise_eq]

theorem exec_bwFinish_of_open {s : State} (hopen : s.blk.wfin = false) :
    exec .bwFinish s =
      .next (answered s .ok (countWord (bytesFor s.blk.wpos)) { s.blk with wfin := true }) := by
  rw [exec, execBwFinish, if_neg (Bool.eq_false_iff.mp hopen), respond_eq]

/-- Settles O27: the writer is finished or open, and `TXB` has the bytes that `WPOS` bits occupy. -/
theorem bwFinishSetsTheFlagOnce : Obligations.BwFinishSetsTheFlagOnce :=
  fun s => ⟨exec_bwFinish_of_finished, exec_bwFinish_of_open, pack_length s.blk.wbits⟩

/-! ### `BW.WRITE` -/

theorem widthLegal_eq_false_iff {w : Word} : widthLegal w = false ↔ w.toNat < 1 ∨ 32 < w.toNat := by
  rw [Bool.eq_false_iff, ne_eq, widthLegal_iff]
  omega

theorem fieldOverflows_eq_false_iff {w v : Word} :
    fieldOverflows w v = false ↔ v.toNat < 2 ^ w.toNat := by
  rw [Bool.eq_false_iff, ne_eq, fieldOverflows_iff, Nat.not_le]

section

variable {s : State} {w v : Word}

theorem exec_bwWrite_of_illegal_width (hw : widthLegal w = false) :
    exec (.bwWrite w v) s = .next (answered s (.fail .illegalCommand) 0 s.blk) := by
  simp [exec, execBwWrite, hw, raise_eq]

theorem exec_bwWrite_of_finished (hw : widthLegal w = true) (hfin : s.blk.wfin = true) :
    exec (.bwWrite w v) s = .next (answered s (.fail .illegalState) 0 s.blk) := by
  simp [exec, execBwWrite, hw, hfin, raise_eq]

theorem exec_bwWrite_of_overflow (hw : widthLegal w = true) (hopen : s.blk.wfin = false)
    (hv : fieldOverflows w v = true) :
    exec (.bwWrite w v) s = .next (answered s (.fail .fieldOverflow) 0 s.blk) := by
  simp [exec, execBwWrite, hw, hopen, hv, raise_eq]

theorem exec_bwWrite_of_no_room (hw : widthLegal w = true) (hopen : s.blk.wfin = false)
    (hv : fieldOverflows w v = false) (hfull : overBitCap s.params.bufCap (s.blk.wpos + w.toNat) = true) :
    exec (.bwWrite w v) s = .next (answered s (.fail .capacityExceeded) 0 s.blk) := by
  simp [exec, execBwWrite, hw, hopen, hv, hfull, raise_eq]

theorem exec_bwWrite_of_room (hw : widthLegal w = true) (hopen : s.blk.wfin = false)
    (hv : fieldOverflows w v = false)
    (hroom : overBitCap s.params.bufCap (s.blk.wpos + w.toNat) = false) :
    exec (.bwWrite w v) s = .next (answered s .ok 0 (s.blk.appendBits v.toNat w.toNat)) := by
  simp [exec, execBwWrite, hw, hopen, hv, hroom, respond_eq]

end

/-- Settles O26: the four checks in R92's order, each with the checks before it passed, and the append. -/
theorem bwWriteAppendsOrRefuses : Obligations.BwWriteAppendsOrRefuses := by
  intro s w v
  refine ⟨fun hw => ?width, fun h1 h32 hfin => ?finished, fun h1 h32 hopen hv => ?overflow,
    fun h1 h32 hopen hv hfull => ?full, fun h1 h32 hopen hv hroom => ?appends⟩
  case width => exact exec_bwWrite_of_illegal_width (widthLegal_eq_false_iff.mpr hw)
  all_goals have hw := (widthLegal_iff w).mpr ⟨h1, h32⟩
  case finished => exact exec_bwWrite_of_finished hw hfin
  case overflow => exact exec_bwWrite_of_overflow hw hopen ((fieldOverflows_iff w v).mpr hv)
  all_goals have hv := fieldOverflows_eq_false_iff.mpr hv
  case full => exact exec_bwWrite_of_no_room hw hopen hv (overBitCap_eq_true.mpr hfull)
  case appends => exact exec_bwWrite_of_room hw hopen hv (overBitCap_eq_false.mpr hroom)

/-! ### A split write -/

/-- Appending a high part and then a low part appends the whole field. -/
theorem appendBits_appendBits (b : Block) {hi lo w1 w2 : Nat} (hlo : lo < 2 ^ w2) :
    (b.appendBits hi w1).appendBits lo w2 = b.appendBits (hi * 2 ^ w2 + lo) (w1 + w2) := by
  simp only [Block.appendBits, msb_add hlo, List.append_assoc]

@[simp] theorem appendBits_wpos (b : Block) (v w : Nat) : (b.appendBits v w).wpos = b.wpos + w := by
  simp [Block.wpos]

/-- Settles O29: each of the three writes is legal and has room, and the two appends are the one. -/
theorem splitWriteLeavesTheSameBits : Obligations.SplitWriteLeavesTheSameBits := by
  intro s w1 w2 w hi lo v h1 h2 hw h32 hhi hlo hv hopen hroom
  have hroomAll : overBitCap s.params.bufCap (s.blk.wpos + w.toNat) = false :=
    overBitCap_eq_false.mpr hroom
  have hroomParts : overBitCap s.params.bufCap (s.blk.wpos + w1.toNat + w2.toNat) = false := by
    rwa [hw, ← Nat.add_assoc] at hroomAll
  refine ⟨s.blk.appendBits v.toNat w.toNat, s.blk.appendBits hi.toNat w1.toNat, ?whole, ?high, ?low⟩
  case whole =>
    have hfit : v.toNat < 2 ^ w.toNat := by
      rw [hv, hw, pow_add, Nat.mul_comm hi.toNat]
      exact Nat.mul_add_lt_mul_of_lt_of_lt hhi hlo
    exact exec_bwWrite_of_room ((widthLegal_iff w).mpr (by omega)) hopen
      (fieldOverflows_eq_false_iff.mpr hfit) hroomAll
  case high =>
    exact exec_bwWrite_of_room ((widthLegal_iff w1).mpr (by omega)) hopen
      (fieldOverflows_eq_false_iff.mpr hhi) (overBitCap_mono hroomParts (Nat.le_add_right _ _))
  case low =>
    rw [hv, hw, ← appendBits_appendBits s.blk hlo]
    exact exec_bwWrite_of_room ((widthLegal_iff w2).mpr (by omega)) hopen
      (fieldOverflows_eq_false_iff.mpr hlo) (by rwa [appendBits_wpos])

/-! ### Runs of encoded commands -/

/-- A run goes on from the state that its first part gives. -/
theorem run_add {m : Nat} {s t : State} (n : Nat) (h : Sys2Proof.core.run m s = .next t) :
    Sys2Proof.core.run (m + n) s = Sys2Proof.core.run n t := by
  induction m generalizing s with
  | zero =>
    obtain rfl : s = t := Host.Outcome.next.inj h
    rw [Nat.zero_add]
  | succ m ih =>
    rw [Nat.succ_add]
    cases hstep : step s with
    | next s' =>
      rw [run_succ _ hstep] at h ⊢
      exact ih h
    | fault f => cases f
    | refused r =>
      have hcore : Sys2Proof.core.step s = .refused r := hstep
      simp only [Host.Core.run, hcore] at h
      cases h

/-- A run whose next word is an encoded command goes on from the state that the command gives. -/
theorem run_succ_of_encode {s s' : State} {i : Instr} {rest : List CommandWord} (n : Nat)
    (hr : s.requests = encode i :: rest) (hi : i.wellFormed = true)
    (h : exec i { s with requests := rest } = .next s') :
    Sys2Proof.core.run (n + 1) s = Sys2Proof.core.run n s' :=
  run_succ n ((step_of_decode_ok hr (decodeEncodeRoundTrip i hi)).trans h)

/-! ### A sequence of writes -/

/-- A field with its width first, as the operands of `BW.WRITE`: what R92 accepts on an open writer with
room. -/
abbrev LegalField (f : Word × Word) : Prop :=
  1 ≤ f.1.toNat ∧ f.1.toNat ≤ 32 ∧ f.2.toNat < 2 ^ f.1.toNat

/-- The sum of the fields' widths. -/
abbrev totalWidth (fs : List (Word × Word)) : Nat := (fs.map fun f => f.1.toNat).sum

/-- The command words that write the fields in order. -/
abbrev writeWords (fs : List (Word × Word)) : List CommandWord :=
  fs.map fun f => encode (.bwWrite f.1 f.2)

/-- The bits of the fields in stream order: `msb(v_1, w_1) ++ ... ++ msb(v_k, w_k)` (R94). -/
def fieldsBits (fs : List (Word × Word)) : List Bool := fs.flatMap fun f => msb f.2.toNat f.1.toNat

theorem fieldsBits_cons (f : Word × Word) (fs : List (Word × Word)) :
    fieldsBits (f :: fs) = msb f.2.toNat f.1.toNat ++ fieldsBits fs :=
  List.flatMap_cons

theorem fieldsBits_append (fs gs : List (Word × Word)) :
    fieldsBits (fs ++ gs) = fieldsBits fs ++ fieldsBits gs :=
  List.flatMap_append

@[simp] theorem fieldsBits_length (fs : List (Word × Word)) :
    (fieldsBits fs).length = totalWidth fs := by
  simp [fieldsBits, List.length_flatMap]

/-- The state after the writes of `fs` have succeeded, with the words `rest` left on the request port. -/
def written (s : State) (fs : List (Word × Word)) (rest : List CommandWord) : State :=
  { s with
    blk := { s.blk with wbits := s.blk.wbits ++ fieldsBits fs }
    requests := rest
    responses := s.responses ++ List.replicate fs.length { st := .ok, r := 0 } }

/-- Legal writes with room for all of them succeed one after the other. -/
theorem run_writes {s : State} {fs : List (Word × Word)} {rest : List CommandWord}
    (hlegal : ∀ f ∈ fs, LegalField f) (hopen : s.blk.wfin = false)
    (hroom : overBitCap s.params.bufCap (s.blk.wpos + totalWidth fs) = false)
    (hr : s.requests = writeWords fs ++ rest) :
    Sys2Proof.core.run fs.length s = .next (written s fs rest) := by
  induction fs generalizing s with
  | nil =>
    obtain rfl : s.requests = rest := hr
    simp [written, fieldsBits]
  | cons f fs ih =>
    obtain ⟨h1, h32, hv⟩ := hlegal f List.mem_cons_self
    have hsum : totalWidth (f :: fs) = f.1.toNat + totalWidth fs := List.sum_cons
    rw [hsum, ← Nat.add_assoc] at hroom
    have hwrite := run_succ_of_encode fs.length hr rfl <|
      exec_bwWrite_of_room ((widthLegal_iff f.1).mpr ⟨h1, h32⟩) hopen (fieldOverflows_eq_false_iff.mpr hv)
        (overBitCap_mono hroom (Nat.le_add_right _ _))
    have hrest := ih
      (s := answered { s with requests := writeWords fs ++ rest } .ok 0
        (s.blk.appendBits f.2.toNat f.1.toNat))
      (fun g hg => hlegal g (List.mem_cons_of_mem f hg)) hopen (by rwa [appendBits_wpos]) rfl
    refine hwrite.trans (hrest.trans ?_)
    simp [written, fieldsBits_cons, List.replicate_succ, List.append_assoc]

/-- The writes and then the finish, on an open writer: it is finished and holds the fields' bits after those
it held. -/
theorem run_writes_finish {s : State} {fs : List (Word × Word)}
    (hlegal : ∀ f ∈ fs, LegalField f) (hopen : s.blk.wfin = false)
    (hroom : overBitCap s.params.bufCap (s.blk.wpos + totalWidth fs) = false)
    (hr : s.requests = writeWords fs ++ [encode .bwFinish]) :
    ∃ t : State, Sys2Proof.core.run (fs.length + 1) s = .next t ∧ t.blk.wfin = true ∧
      t.blk.wbits = s.blk.wbits ++ fieldsBits fs := by
  have hfinish := run_succ_of_encode (s := written s fs [encode .bwFinish]) 0 rfl rfl
    (exec_bwFinish_of_open hopen)
  exact ⟨_, (run_add 1 (run_writes hlegal hopen hroom hr)).trans hfinish, rfl, rfl⟩

/-- A field reads back at the sum of the widths before it. -/
theorem field_pack_fieldsBits {fs : List (Word × Word)} {j : Nat} (hj : j < fs.length)
    (hv : fs[j].2.toNat < 2 ^ fs[j].1.toNat) :
    field (pack (fieldsBits fs)) (totalWidth (fs.take j)) fs[j].1.toNat = fs[j].2.toNat := by
  have hcut : fieldsBits fs = fieldsBits (fs.take j) ++ msb fs[j].2.toNat fs[j].1.toNat ++
      fieldsBits (fs.drop (j + 1)) := by
    rw [List.append_assoc, ← fieldsBits_cons, ← List.drop_eq_getElem_cons hj, ← fieldsBits_append,
      List.take_append_drop]
  rw [hcut, ← fieldsBits_length]
  exact field_pack_msb _ _ hv

/-- Settles O28: the run leaves the fields' bits in a finished writer, and `pack` keeps them and fills up with
zeros. -/
theorem writtenFieldsReadBack : Obligations.WrittenFieldsReadBack := by
  intro s fs hlegal hroom hr
  have hroom := overBitCap_eq_false.mpr hroom
  have hreset := run_succ_of_encode (fs.length + 1) hr rfl (bwResetMakesAFreshWriter _)
  obtain ⟨t, hrun, hfin, hbits⟩ := run_writes_finish
    (s := answered { s with requests := writeWords fs ++ [encode .bwFinish] } .ok 0
      { s.blk with wbits := [], wfin := false })
    hlegal rfl (by simpa [Block.wpos] using hroom) rfl
  refine ⟨t, hreset.trans hrun, hfin, ?_⟩
  rw [hbits, List.nil_append]
  refine ⟨fieldsBits_length fs, ?bytes, fun j hj => ?reads, fun k hk _ => ?padding⟩
  case bytes => rw [pack_length, fieldsBits_length, bytesFor]
  case reads =>
    obtain ⟨-, -, hv⟩ := hlegal _ (List.getElem_mem hj)
    exact field_pack_fieldsBits hj hv
  case padding => rw [bitAt_pack, List.getD_eq_default _ _ ((fieldsBits_length fs).trans_le hk)]

end Sys2Proof.Proofs

/-! PROOFS. The statements about the bit-stream reader (spec/42_bitstream_reader.md R101 to R104): its three
commands, then the laws of a sequence of reads. -/

namespace Sys2Proof.Proofs

open Sys2Proof.Machine Sys2Proof.Safety

/-! ### `BR.RESET` and `BR.REMAIN` -/

/-- Settles O30: the command checks nothing. -/
theorem brResetRewinds : Obligations.BrResetRewinds :=
  fun s => respond_eq s _ 0

/-- Settles O32: the bits left, where they fit the result. -/
theorem brRemainCountsTheBitsLeft : Obligations.BrRemainCountsTheBitsLeft :=
  fun s => ⟨remainWord s.blk, respond_eq s s.blk _, remainWord_of_lt⟩

/-! ### `BR.READ` -/

section

variable {s : State} {w : Word}

theorem exec_brRead_of_illegal_width (hw : widthLegal w = false) :
    exec (.brRead w) s = .next (answered s (.fail .illegalCommand) 0 s.blk) := by
  simp [exec, execBrRead, hw, raise_eq]

theorem exec_brRead_of_short (hw : widthLegal w = true)
    (short : 8 * s.blk.rxb.length < s.blk.rpos + w.toNat) :
    exec (.brRead w) s = .next (answered s (.fail .truncatedInput) 0 s.blk) := by
  simp [exec, execBrRead, hw, short, raise_eq]

end

/-- A field of at most 32 bits is the value of the word that holds it. -/
theorem field_word_toNat (buf : List Byte) (p : Nat) {w : Nat} (hw : w ≤ 32) :
    (BitVec.ofNat 32 (field buf p w)).toNat = field buf p w := by
  rw [BitVec.toNat_ofNat, Nat.mod_eq_of_lt]
  exact (field_lt buf p w).trans_le (Nat.pow_le_pow_right (by decide) hw)

/-- The bits above a field in its word are 0. -/
theorem field_word_getLsbD_of_le (buf : List Byte) (p : Nat) {w k : Nat} (hk : w ≤ k) :
    (BitVec.ofNat 32 (field buf p w)).getLsbD k = false := by
  have hfield : (field buf p w).testBit k = false :=
    Nat.testBit_lt_two_pow ((field_lt buf p w).trans_le (Nat.pow_le_pow_right (by decide) hk))
  rw [BitVec.getLsbD_ofNat, hfield, Bool.and_false]

/-- Settles O31: the two checks in R102's order, and the field read, bit by bit. -/
theorem brReadConsumesOrRefuses : Obligations.BrReadConsumesOrRefuses := by
  intro s w
  refine ⟨fun hw => ?width, fun h1 h32 short => ?short, fun h1 h32 left => ?reads⟩
  case width => exact exec_brRead_of_illegal_width (widthLegal_eq_false_iff.mpr hw)
  case short => exact exec_brRead_of_short ((widthLegal_iff w).mpr ⟨h1, h32⟩) short
  case reads =>
    exact ⟨_, exec_brRead_of_left h1 h32 left, fun k hk => field_word_getLsbD _ _ h32 hk,
      fun k hk => field_word_getLsbD_of_le _ _ hk⟩

/-! ### A split read -/

/-- Settles O33: each of the three reads is legal and has its bits left, and the two fields are the one. -/
theorem splitReadGivesTheSameValue : Obligations.SplitReadGivesTheSameValue := by
  intro s w1 w2 w h1 h2 hw h32 left
  have whole := exec_brRead_of_left (by omega) h32 left
  have high := exec_brRead_of_left (s := s) (w := w1) h1 (by omega) (by omega)
  have low := exec_brRead_of_left (w := w2)
    (s := answered s .ok (BitVec.ofNat 32 (field s.blk.rxb s.blk.rpos w1.toNat))
      { s.blk with rpos := s.blk.rpos + w1.toNat })
    h2 (by omega) (show s.blk.rpos + w1.toNat + w2.toNat ≤ 8 * s.blk.rxb.length by omega)
  have hblk : ({ s.blk with rpos := s.blk.rpos + w.toNat } : Block) =
      { s.blk with rpos := s.blk.rpos + w1.toNat + w2.toNat } := by
    rw [hw, Nat.add_assoc]
  rw [hblk] at whole
  refine ⟨_, _, _, _, _, whole, high, low, ?value⟩
  case value =>
    rw [field_word_toNat _ _ h32, field_word_toNat _ _ (by omega), field_word_toNat _ _ (by omega), hw,
      field_add]

/-! ### A sequence of reads -/

/-- The fields of the widths `ws` that stand in the buffer one after the other from stream index `p`, each
as the word that `BR.READ` returns. -/
def fieldsAt (buf : List Byte) : Nat → List Word → List Word
  | _, [] => []
  | p, w :: ws => BitVec.ofNat 32 (field buf p w.toNat) :: fieldsAt buf (p + w.toNat) ws

/-- The state after the reads of `ws` have succeeded, with the words `rest` left on the request port. -/
def readOut (s : State) (ws : List Word) (rest : List CommandWord) : State :=
  { s with
    blk := { s.blk with rpos := s.blk.rpos + (ws.map BitVec.toNat).sum }
    requests := rest
    responses := s.responses ++ (fieldsAt s.blk.rxb s.blk.rpos ws).map fun r => { st := .ok, r := r } }

theorem readOut_blk (s : State) (ws : List Word) (rest : List CommandWord) :
    (readOut s ws rest).blk = { s.blk with rpos := s.blk.rpos + (ws.map BitVec.toNat).sum } := rfl

theorem readOut_responses (s : State) (ws : List Word) (rest : List CommandWord) :
    (readOut s ws rest).responses = s.responses ++
      (fieldsAt s.blk.rxb s.blk.rpos ws).map fun r => { st := .ok, r := r } := rfl

/-- Legal reads with bits enough left for all of them succeed one after the other. -/
theorem run_reads {s : State} {ws : List Word} {rest : List CommandWord}
    (hlegal : ∀ w ∈ ws, 1 ≤ w.toNat ∧ w.toNat ≤ 32)
    (left : s.blk.rpos + (ws.map BitVec.toNat).sum ≤ 8 * s.blk.rxb.length)
    (hr : s.requests = (ws.map fun w => encode (.brRead w)) ++ rest) :
    Sys2Proof.core.run ws.length s = .next (readOut s ws rest) := by
  induction ws generalizing s with
  | nil =>
    obtain rfl : s.requests = rest := hr
    simp [readOut, fieldsAt]
  | cons w ws ih =>
    obtain ⟨h1, h32⟩ := hlegal w List.mem_cons_self
    rw [List.map_cons, List.sum_cons, ← Nat.add_assoc] at left
    have hread := run_succ_of_encode ws.length hr rfl <|
      exec_brRead_of_left h1 h32 ((Nat.le_add_right _ _).trans left)
    have hrest := ih
      (s := answered { s with requests := (ws.map fun w => encode (.brRead w)) ++ rest } .ok
        (BitVec.ofNat 32 (field s.blk.rxb s.blk.rpos w.toNat))
        { s.blk with rpos := s.blk.rpos + w.toNat })
      (fun v hv => hlegal v (List.mem_cons_of_mem w hv)) left rfl
    refine hread.trans (hrest.trans ?_)
    simp [readOut, fieldsAt, Nat.add_assoc]

/-- Fields packed after other bits are found again at the end of these. -/
theorem fieldsAt_pack_fieldsBits (pre : List Bool) {fs : List (Word × Word)}
    (hv : ∀ f ∈ fs, f.2.toNat < 2 ^ f.1.toNat) :
    fieldsAt (pack (pre ++ fieldsBits fs)) pre.length (fs.map Prod.fst) = fs.map Prod.snd := by
  induction fs generalizing pre with
  | nil => rfl
  | cons f fs ih =>
    have hrest := ih (pre ++ msb f.2.toNat f.1.toNat) fun g hg => hv g (List.mem_cons_of_mem f hg)
    rw [List.length_append, msb_length] at hrest
    rw [fieldsBits_cons, ← List.append_assoc, List.map_cons, fieldsAt,
      field_pack_msb _ _ (hv f List.mem_cons_self), BitVec.ofNat_toNat, BitVec.setWidth_eq, hrest,
      List.map_cons]

theorem sum_map_fst_toNat (fs : List (Word × Word)) :
    ((fs.map Prod.fst).map BitVec.toNat).sum = totalWidth fs :=
  congrArg List.sum List.map_map

/-- Packed fields have room for the reads of their widths from cursor 0. -/
theorem run_reads_of_packed {s : State} {fs : List (Word × Word)} (hlegal : ∀ f ∈ fs, LegalField f)
    (hrxb : s.blk.rxb = pack (fieldsBits fs)) (hrpos : s.blk.rpos = 0)
    (hr : s.requests = fs.map fun f => encode (.brRead f.1)) :
    Sys2Proof.core.run fs.length s = .next (readOut s (fs.map Prod.fst) []) := by
  rw [← List.length_map (f := Prod.fst)]
  refine run_reads (fun w hw => ?legal) ?left ?words
  case legal =>
    obtain ⟨f, hf, rfl⟩ := List.mem_map.mp hw
    obtain ⟨h1, h32, -⟩ := hlegal f hf
    exact ⟨h1, h32⟩
  case left =>
    rw [hrpos, sum_map_fst_toNat, hrxb, pack_length, fieldsBits_length, bytesFor]
    omega
  case words => rw [hr, List.append_nil, List.map_map]; rfl

/-- Settles O34: the reads of the packed fields find them one after the other, and stop at their end. -/
theorem readerInvertsTheWriter : Obligations.ReaderInvertsTheWriter := by
  intro s fs hlegal hrxb hrpos hr
  have hrxb : s.blk.rxb = pack (fieldsBits fs) := hrxb
  have hfields : fieldsAt s.blk.rxb s.blk.rpos (fs.map Prod.fst) = fs.map Prod.snd := by
    rw [hrxb, hrpos]
    refine fieldsAt_pack_fieldsBits [] fun f hf => ?_
    obtain ⟨-, -, hv⟩ := hlegal f hf
    exact hv
  have hblk : (readOut s (fs.map Prod.fst) []).blk = { s.blk with rpos := totalWidth fs } := by
    rw [readOut_blk, hrpos, sum_map_fst_toNat, Nat.zero_add]
  refine ⟨_, run_reads_of_packed hlegal hrxb hrpos hr, ?responses, hblk, ?padding⟩
  case responses => rw [readOut_responses, hfields, List.map_map]; rfl
  case padding =>
    simp only [hblk, hrxb, pack_length, fieldsBits_length, bytesFor, totalWidth]
    omega

end Sys2Proof.Proofs

/-! PROOFS. The statements about the STATUS PDU codec (spec/43_status_pdu_codec.md R110 to R123): the decoder
against the encoder and against its buffer, the commands one by one, then the two commands as sequences of
primitive ones. -/

namespace Sys2Proof.Proofs

open Sys2Proof.Machine Sys2Proof.Safety

/-! ### Decoding an encoded PDU -/

/-- A sequence-number field has the value of its ten bits. -/
theorem eq_snField_iff {buf : List Byte} {p : Nat} {v : Residue} :
    v = snField buf p ↔ v.toNat = field buf p 10 := by
  rw [← BitVec.toNat_inj, snField, BitVec.toNat_ofNat, Nat.mod_eq_of_lt (field_lt buf p 10)]

/-- An encoded PDU within `NACK_CAP` holds what the decoder looks for. -/
theorem Carries.of_ser {cap : Option Nat} (ack : Residue) {nacks : List Residue}
    (hfits : overCap cap nacks.length = false) :
    Carries cap (ser ack nacks)
      { ack := ack, nacks := nacks, hlen := (15 + 11 * nacks.length + 7) / 8 } where
  long := by
    rw [ser_length_eq]
    omega
  header := by rw [field_add _ 0 1 3, field_one, ser_discriminator, Nat.zero_add, ser_controlType]; rfl
  ack := eq_snField_iff.mpr (ser_ack ack nacks).symm
  entry k hk := ⟨(ser_e1 ack nacks hk.le).trans (decide_eq_true hk),
    eq_snField_iff.mpr (ser_entry ack nacks hk).symm⟩
  finalE1 := (ser_e1 ack nacks le_rfl).trans (decide_eq_false (Nat.lt_irrefl _))
  whole := by
    rw [ser_length_eq]
    show 15 + 11 * nacks.length ≤ _
    omega
  fits := hfits
  hlen := rfl

/-- Settles O47: the encoded PDU carries what the decoder looks for, and the bytes after it leave its bits as
they are. -/
theorem decodeInvertsEncode : Obligations.DecodeInvertsEncode := by
  intro cap ack nacks rest hfits
  have hser := Carries.of_ser ack (overCap_eq_false.mpr hfits)
  have hlen := ser_length_eq ack nacks
  refine des_eq_ok_iff.mpr (hser.of_bitAt_eq ?_ fun i hi => bitAt_append_left ?_)
  · rw [List.length_append, hlen]
    exact Nat.le_add_right _ _
  · rw [hlen]
    dsimp only at hi
    omega

/-! ### Which buffers decode -/

/-- Settles O44: what a decodable buffer carries, its fields by their values. -/
theorem decodeSucceedsExactlyOnWholePdus : Obligations.DecodeSucceedsExactlyOnWholePdus := by
  intro cap buf d
  rw [des_eq_ok_iff]
  simp only [← eq_snField_iff, ← overCap_eq_false]
  exact ⟨fun h => ⟨h.long, h.header, h.ack, h.entry, h.finalE1, h.whole, h.fits, h.hlen⟩,
    fun ⟨long, header, ack, entry, finalE1, whole, fits, hlen⟩ =>
      ⟨long, header, ack, entry, finalE1, whole, fits, hlen⟩⟩

/-! ### Which failure the decoder reports -/

section

variable {cap : Option Nat} {buf : List Byte}

/-- The decoder's loop goes past `k` whole entries that fit the queue, and no fuel runs out on the way. -/
theorem desChain_past_entries {fuel p k : Nat} {nacks : List Residue}
    (hfuel : 8 * buf.length ≤ p + 11 * fuel) (hroom : p + 11 * k ≤ 8 * buf.length)
    (hones : ∀ j < k, bitAt buf (p + 11 * j) = true) (hcap : overCap cap (nacks.length + k) = false) :
    ∃ out : List Residue, out.length = nacks.length + k ∧
      desChain cap buf fuel p nacks = desChain cap buf (fuel - k) (p + 11 * k) out := by
  induction k with
  | zero => exact ⟨nacks, rfl, rfl⟩
  | succ k ih =>
    obtain ⟨out, hout, heq⟩ :=
      ih (by omega) (fun j hj => hones j (by omega)) (overCap_mono hcap (by omega))
    refine ⟨out ++ [snField buf (p + 11 * k + 1)], by simp [hout, Nat.add_assoc], heq.trans ?_⟩
    rw [desChain_unfold _ _ _ _ _ (by omega), if_neg (by omega), if_neg (by simp [hones k (by omega)]),
      if_neg (by omega), hout, Nat.add_assoc, if_neg (by simp [hcap])]
    rfl

/-- With a zero header, the decoder reports what its loop reports at the entry after `k` whole ones. -/
theorem des_error_at_entry {k : Nat} {f : Failure} (hlong : 2 ≤ buf.length) (hheader : field buf 0 4 = 0)
    (hones : ∀ j < k, bitAt buf (14 + 11 * j) = true) (hcap : overCap cap k = false)
    (hroom : 14 + 11 * k ≤ 8 * buf.length)
    (hentry : ∀ out : List Residue, out.length = k →
      desChain cap buf (buf.length - k) (14 + 11 * k) out = .error f) :
    des cap buf = .error f := by
  obtain ⟨out, hout, heq⟩ := desChain_past_entries (fuel := buf.length) (nacks := []) (by omega) hroom
    hones (by simpa using hcap)
  rw [des, if_neg (not_lt.mpr hlong), if_neg (not_not.mpr hheader), heq, hentry out (by simpa using hout)]

end

/-- Settles O45: the two checks in front of the loop, and the three checks of the entry at which it ends. -/
theorem decodeReportsTheFirstFailure : Obligations.DecodeReportsTheFirstFailure := by
  intro cap buf
  refine ⟨fun hshort => ?short, fun hlong hheader => ?header,
    fun k hlong hheader hones hcap hroom hcut => ?e1Cut,
    fun k hlong hheader hones hcap hroom hcut => ?valueCut,
    fun k hlong hheader hones hcap hroom => ?full⟩
  case short => rw [des, if_pos hshort]
  case header => rw [des, if_neg (not_lt.mpr hlong), if_pos hheader]
  case e1Cut =>
    refine des_error_at_entry hlong hheader hones (overCap_eq_false.mpr hcap) hroom fun out hout => ?_
    rw [desChain_unfold _ _ _ _ _ (by omega), if_pos (by omega)]
  case valueCut =>
    refine des_error_at_entry hlong hheader (fun j hj => hones j hj.le) (overCap_eq_false.mpr hcap)
      (by omega) fun out hout => ?_
    rw [desChain_unfold _ _ _ _ _ (by omega), if_neg (by omega), if_neg (by simp [hones k le_rfl]),
      if_pos (by omega)]
  case full =>
    subst hcap
    refine des_error_at_entry hlong hheader (fun j hj => hones j hj.le) (by simp) (by omega)
      fun out hout => ?_
    rw [desChain_unfold _ _ _ _ _ (by omega), if_neg (by omega), if_neg (by simp [hones k le_rfl]),
      if_neg (by omega), if_pos (by simp [hout])]

/-! ### Encoding a decoded PDU again -/

/-- Equal fields have equal bits. -/
theorem bitAt_eq_of_field_eq {a b : List Byte} {p w k : Nat} (h : field a p w = field b p w)
    (hw : w ≤ 32) (hk : k < w) : bitAt a (p + k) = bitAt b (p + k) := by
  rw [← field_word_getLsbD a p hw hk, h, field_word_getLsbD b p hw hk]

/-- Two buffers that carry the same PDU agree up to its final E1. -/
theorem Carries.bitAt_eq {cap cap' : Option Nat} {a b : List Byte} {d : Decoded} (ha : Carries cap a d)
    (hb : Carries cap' b d) {i : Nat} (hi : i < 15 + 11 * d.nacks.length) : bitAt a i = bitAt b i := by
  have hsn {p i : Nat} (h : snField a p = snField b p) (hp : p ≤ i) (hi : i < p + 10) :
      bitAt a i = bitAt b i := by
    have hfield : field a p 10 = field b p 10 :=
      (eq_snField_iff.mp rfl).symm.trans (eq_snField_iff.mp h)
    rw [show i = p + (i - p) by omega]
    exact bitAt_eq_of_field_eq hfield (by decide) (by omega)
  obtain hheader | ⟨hlow, hhigh⟩ | ⟨k, rfl⟩ | ⟨k, j, hj, rfl⟩ : i < 4 ∨ (4 ≤ i ∧ i < 14) ∨
      (∃ k, i = 14 + 11 * k) ∨ (∃ k j, j < 10 ∧ i = 15 + 11 * k + j) := by
    by_cases hchain : i < 14
    · omega
    · by_cases he1 : (i - 14) % 11 = 0
      · exact .inr (.inr (.inl ⟨(i - 14) / 11, by omega⟩))
      · exact .inr (.inr (.inr ⟨(i - 14) / 11, (i - 14) % 11 - 1, by omega, by omega⟩))
  · have := bitAt_eq_of_field_eq (ha.header.trans hb.header.symm) (by decide) hheader
    rwa [Nat.zero_add] at this
  · exact hsn (ha.ack.symm.trans hb.ack) hlow hhigh
  · obtain hk | hk : k < d.nacks.length ∨ k = d.nacks.length := by omega
    · obtain ⟨ha1, -⟩ := ha.entry k hk
      obtain ⟨hb1, -⟩ := hb.entry k hk
      rw [ha1, hb1]
    · rw [hk, ha.finalE1, hb.finalE1]
  · obtain ⟨-, hav⟩ := ha.entry k (by omega)
    obtain ⟨-, hbv⟩ := hb.entry k (by omega)
    exact hsn (hav.symm.trans hbv) (by omega) (by omega)

theorem bitAt_take {buf : List Byte} {n i : Nat} (hn : n ≤ buf.length) (hi : i < 8 * n) :
    bitAt (buf.take n) i = bitAt buf i := by
  have h := bitAt_append_left (a := buf.take n) (b := buf.drop n) (i := i)
    (by rwa [List.length_take_of_le hn])
  rw [← h, List.take_append_drop]

/-- Settles O49: the encoder's bytes and the header's agree up to the final E1, and the encoder's padding
is 0. -/
theorem reencodingGivesTheHeaderBackWhenPaddingIsZero :
    Obligations.ReencodingGivesTheHeaderBackWhenPaddingIsZero := by
  intro cap buf d h
  have hbuf := des_eq_ok_iff.mp h
  have hser := Carries.of_ser d.ack hbuf.fits
  obtain ⟨htwo, hle⟩ := des_ok_hlen h
  have hlen : (ser d.ack d.nacks).length = d.hlen := (ser_length_eq _ _).trans hbuf.hlen.symm
  rw [← hbuf.hlen] at hser
  refine ⟨hbuf.hlen, htwo, hle, fun heq i hi hpad => ?zero, fun hzero => ?same⟩
  case zero => rw [← bitAt_take hle hpad, ← heq, ser_padding _ _ hi]
  case same =>
    refine eq_of_bitAt (by rw [hlen, List.length_take_of_le hle]) fun i hi => ?_
    rw [hlen] at hi
    rw [bitAt_take hle hi]
    obtain hin | hpad := Nat.lt_or_ge i (15 + 11 * d.nacks.length)
    · exact hser.bitAt_eq hbuf hin
    · rw [ser_padding _ _ hpad, hzero i hpad hi]

/-! ### The PDU commands -/

/-- Settles O35: the command checks nothing. -/
theorem pduClearEmptiesThePdu : Obligations.PduClearEmptiesThePdu :=
  fun s => respond_eq s _ 0

theorem exec_pduSetack (raw : Word) (s : State) :
    exec (.pduSetack raw) s = .next (answered s .ok 0 (s.blk.setPdu (create raw) s.blk.nackq)) :=
  respond_eq s _ 0

theorem exec_pduSer (s : State) :
    exec .pduSer s = .next (answered s .ok (countWord (pduBytes s.blk.nackq.length))
      (s.blk.loadWriter (serBits s.blk.ack s.blk.nackq))) :=
  respond_eq s _ _

/-- Settles O36: the decoder's row, the command, and the command followed by `PDU.SER`. -/
theorem pduSetackStoresTheResidue : Obligations.PduSetackStoresTheResidue := by
  refine ⟨fun a b => decode_commandWord 0x41 a b, fun s raw => ?stores, fun s hq => ?thenSer⟩
  case stores =>
    rw [← create_eq_ofNat]
    exact exec_pduSetack raw s
  case thenSer =>
    refine ⟨_, _, exec_pduSetack 8 s, exec_pduSer _, rfl, ?_⟩
    show ser (create 8) s.blk.nackq = [0x00, 0x20]
    rw [hq]
    decide

/-- Settles O37: the queue is full, or has room for one entry more. -/
theorem pduPushnackAppendsAtTheTail : Obligations.PduPushnackAppendsAtTheTail := by
  intro s raw
  rw [← create_eq_ofNat]
  refine ⟨fun ⟨c, hc, hfull⟩ => ?_, fun hroom => ?_⟩ <;> rw [exec, execPduPushnack]
  · rw [if_pos (overCap_eq_true.mpr ⟨c, hc, Nat.lt_succ_of_le hfull⟩), raise_eq]
  · rw [if_neg (Bool.eq_false_iff.mp (overCap_eq_false.mpr hroom)), respond_eq]
    rfl

/-- Settles O38: the result is `ACK`, zero-extended. -/
theorem pduGetackReturnsAck : Obligations.PduGetackReturnsAck := by
  intro s
  rw [← residueWord_eq_ofNat]
  exact respond_eq s s.blk _

theorem exec_pduPopnack_of_nil {s : State} (hq : s.blk.nackq = []) :
    exec .pduPopnack s = .next (answered s .ok popSentinel s.blk) := by
  simp only [exec, execPduPopnack, hq, respond_eq]

theorem exec_pduPopnack_of_cons {s : State} {v : Residue} {rest : List Residue}
    (hq : s.blk.nackq = v :: rest) :
    exec .pduPopnack s = .next (answered s .ok (residueWord v) { s.blk with nackq := rest }) := by
  simp only [exec, execPduPopnack, hq, respond_eq]
  rfl

/-- Settles O39: the queue is empty, or has a head. -/
theorem pduPopnackTakesTheHeadOrSentinel : Obligations.PduPopnackTakesTheHeadOrSentinel := by
  refine fun s => ⟨exec_pduPopnack_of_nil, fun v rest hq => ?_⟩
  rw [← residueWord_eq_ofNat]
  exact exec_pduPopnack_of_cons hq

/-- Settles O43: the command checks nothing, and `R` is the length law's byte count. -/
theorem pduSerLoadsTheWriter : Obligations.PduSerLoadsTheWriter :=
  exec_pduSer

/-- Settles O46: the decoder fails, or gives the PDU to store. -/
theorem pduDesStoresTheDecodedPdu : Obligations.PduDesStoresTheDecodedPdu := by
  refine fun s => ⟨fun f hf => ?_, fun d hd => exec_pduDes_of_decoded hd⟩
  simp only [exec, execPduDes, hf, raise_eq]

/-! ### Draining the queue -/

/-- What `len(NACKQ) + m` pops answer: the entries, head first, then the sentinel. -/
def popResponses (nacks : List Residue) (m : Nat) : List Response :=
  (nacks.map fun v => { st := .ok, r := residueWord v }) ++
    List.replicate m { st := .ok, r := popSentinel }

/-- The state after the issued pops have been answered and none is left. -/
def drained (s : State) (m : Nat) : State :=
  { s with
    blk := { s.blk with nackq := [] }
    requests := []
    responses := s.responses ++ popResponses s.blk.nackq m }

/-- Pops of an empty queue answer the sentinel, as often as they are issued. -/
theorem run_pops_of_nil {s : State} {m : Nat} (hq : s.blk.nackq = [])
    (hr : s.requests = List.replicate m (encode .pduPopnack)) :
    Sys2Proof.core.run m s = .next (drained s m) := by
  induction m generalizing s with
  | zero =>
    have hblk : { s.blk with nackq := [] } = s.blk := by rw [← hq]
    have hreq : s.requests = [] := hr
    simp [drained, popResponses, hq, hblk, ← hreq]
  | succ m ih =>
    have hpop := run_succ_of_encode m hr rfl (exec_pduPopnack_of_nil hq)
    refine hpop.trans ((ih ?queue ?words).trans ?state)
    case queue => exact hq
    case words => rfl
    case state => simp [drained, popResponses, hq, List.replicate_succ]

/-- The pops take the entries one after the other, and go on with the empty queue. -/
theorem run_pops {s : State} {m : Nat}
    (hr : s.requests = List.replicate (s.blk.nackq.length + m) (encode .pduPopnack)) :
    Sys2Proof.core.run (s.blk.nackq.length + m) s = .next (drained s m) := by
  generalize hq : s.blk.nackq = q at hr ⊢
  induction q generalizing s with
  | nil =>
    rw [List.length_nil, Nat.zero_add] at hr ⊢
    exact run_pops_of_nil hq hr
  | cons v rest ih =>
    rw [List.length_cons, Nat.succ_add] at hr ⊢
    have hpop := run_succ_of_encode (rest.length + m) hr rfl (exec_pduPopnack_of_cons hq)
    refine hpop.trans (Eq.trans (ih ?words ?queue) ?state)
    case queue => rfl
    case words => rfl
    case state => simp [drained, popResponses, hq]

/-- Settles O40: the run of the pops, its responses written out. -/
theorem popsDrainTheQueueInOrder : Obligations.PopsDrainTheQueueInOrder := by
  refine fun s m hr => ⟨_, run_pops hr, ?_, rfl⟩
  simp only [← residueWord_eq_ofNat, List.append_assoc]
  rfl

/-! ### `PDU.SER` as a sequence of primitive writes -/

/-- The fields that R123 writes for a PDU, each with its width first. -/
def pduFields (ack : Residue) (nacks : List Residue) : List (Word × Word) :=
  [(1, 0), (3, 0), (10, residueWord ack)] ++ (nacks.flatMap fun n => [(1, 1), (10, residueWord n)]) ++
    [(1, 0)]

theorem legalField_residue (v : Residue) : LegalField (10, residueWord v) :=
  ⟨by simp, by simp, by simpa using v.isLt⟩

theorem pduFields_legal {ack : Residue} {nacks : List Residue} :
    ∀ f ∈ pduFields ack nacks, LegalField f := by
  have hbit (v : Word) (hv : v = 0 ∨ v = 1) : LegalField (1, v) := by
    obtain rfl | rfl := hv <;> decide
  simp only [pduFields, List.mem_append, List.mem_flatMap, List.mem_cons, List.not_mem_nil, or_false]
  rintro f (((rfl | rfl | rfl) | ⟨n, -, rfl | rfl⟩) | rfl)
  · exact hbit 0 (.inl rfl)
  · decide
  · exact legalField_residue ack
  · exact hbit 1 (.inr rfl)
  · exact legalField_residue n
  · exact hbit 0 (.inl rfl)

/-- The bits of these fields are the encoded PDU. -/
theorem fieldsBits_pduFields (ack : Residue) (nacks : List Residue) :
    fieldsBits (pduFields ack nacks) = serBits ack nacks := by
  have hentry (n : Residue) : fieldsBits [(1, 1), (10, residueWord n)] = entryBits n := by
    simp [fieldsBits, entryBits]
  have hentries : fieldsBits (nacks.flatMap fun n => [(1, 1), (10, residueWord n)]) =
      nacks.flatMap entryBits := by
    rw [fieldsBits, List.flatMap_assoc]
    exact List.flatMap_congr fun n _ => hentry n
  rw [pduFields, fieldsBits_append, fieldsBits_append, hentries]
  simp [fieldsBits, serBits]

/-- The words that R123 lists for `PDU.SER`. -/
theorem map_encode_pduFields (ack : Residue) (nacks : List Residue) :
    (([.bwReset, .bwWrite 1 0, .bwWrite 3 0, .bwWrite 10 (ack.setWidth 32)] ++
        (nacks.flatMap fun n => [.bwWrite 1 1, .bwWrite 10 (n.setWidth 32)]) ++
        [.bwWrite 1 0, .bwFinish] : List Instr).map encode) =
      encode .bwReset :: (writeWords (pduFields ack nacks) ++ [encode .bwFinish]) := by
  simp [pduFields, writeWords, residueWord, List.map_flatMap]

/-- Legal writes on an open writer and then the finish, with the whole state they leave. -/
theorem run_writes_then_finish {s : State} {fs : List (Word × Word)} (hlegal : ∀ f ∈ fs, LegalField f)
    (hopen : s.blk.wfin = false)
    (hroom : overBitCap s.params.bufCap (s.blk.wpos + totalWidth fs) = false)
    (hr : s.requests = writeWords fs ++ [encode .bwFinish]) :
    Sys2Proof.core.run (fs.length + 1) s =
      .next (answered (written s fs []) .ok (countWord (bytesFor (s.blk.wpos + totalWidth fs)))
        (s.blk.loadWriter (s.blk.wbits ++ fieldsBits fs))) := by
  have hwrites := run_add 1 (run_writes hlegal hopen hroom hr)
  have hfinish := run_succ_of_encode (s := written s fs [encode .bwFinish]) 0 rfl rfl
    (exec_bwFinish_of_open hopen)
  refine hwrites.trans (hfinish.trans ?_)
  simp [written, Block.wpos, Block.loadWriter]

/-- A reset, legal writes with room for all of them, and the finish: the writer holds the fields' bits, and
the last response counts their bytes. -/
theorem run_reset_writes_finish {s : State} {fs : List (Word × Word)} (hlegal : ∀ f ∈ fs, LegalField f)
    (hroom : overBitCap s.params.bufCap (totalWidth fs) = false)
    (hr : s.requests = encode .bwReset :: (writeWords fs ++ [encode .bwFinish])) :
    ∃ (t : State) (earlier : List Response), Sys2Proof.core.run s.requests.length s = .next t ∧
      t.blk = s.blk.loadWriter (fieldsBits fs) ∧
      t.responses = earlier ++ [{ st := .ok, r := countWord (bytesFor (totalWidth fs)) }] := by
  rw [← Nat.zero_add (totalWidth fs)] at hroom ⊢
  have hlength : s.requests.length = fs.length + 1 + 1 := by simp [hr]
  have hreset := run_succ_of_encode (fs.length + 1) hr rfl (bwResetMakesAFreshWriter _)
  have hwrites := run_writes_then_finish hlegal
    (s := answered { s with requests := writeWords fs ++ [encode .bwFinish] } .ok 0
      { s.blk with wbits := [], wfin := false })
    rfl hroom rfl
  exact ⟨_, _, hlength ▸ hreset.trans hwrites, rfl, rfl⟩

/-- Settles O50: the primitive writes leave the encoded PDU's bits, and the finish counts its bytes. -/
theorem pduSerIsThePrimitiveSequence : Obligations.PduSerIsThePrimitiveSequence := by
  rintro s ⟨hlegal, -, hq, -⟩ hr
  rw [map_encode_pduFields] at hr
  have hbits := fieldsBits_pduFields s.blk.ack s.blk.nackq
  have hwidth : totalWidth (pduFields s.blk.ack s.blk.nackq) = pduBits s.blk.nackq.length := by
    rw [← fieldsBits_length, hbits, serBits_length]
  have hroom := serBits_fits hlegal s.blk.ack hq
  rw [serBits_length, ← hwidth] at hroom
  obtain ⟨t, earlier, hrun, hblk, hresponses⟩ := run_reset_writes_finish pduFields_legal hroom hr
  rw [hbits] at hblk
  rw [hwidth] at hresponses
  exact ⟨t, _, _, earlier, hrun, exec_pduSer s, hblk, hresponses⟩

/-! ### `PDU.DES` as a sequence of primitive reads -/

/-- The widths that R123 reads for a PDU with the entries `nacks`, the padding apart. -/
def pduWidths (nacks : List Residue) : List Word :=
  [4, 10] ++ (nacks.flatMap fun _ => [1, 10]) ++ [1]

/-- What these reads return: the header, the acknowledgment, 1 and the value for each entry, the final 0. -/
def pduValues (ack : Residue) (nacks : List Residue) : List Word :=
  [0, residueWord ack] ++ (nacks.flatMap fun n => [1, residueWord n]) ++ [0]

/-- The width of the padding read, when there is padding. -/
def padWidths (pad : Nat) : List Word := if pad = 0 then [] else [BitVec.ofNat 32 pad]

theorem sum_padWidths {pad : Nat} (h : pad < 8) : ((padWidths pad).map BitVec.toNat).sum = pad := by
  unfold padWidths
  split
  · next h0 => exact h0.symm
  · simp
    omega

theorem sum_entryWidths (nacks : List Residue) :
    ((nacks.flatMap fun _ => ([1, 10] : List Word)).map BitVec.toNat).sum = 11 * nacks.length := by
  induction nacks with
  | nil => rfl
  | cons n ns ih =>
    rw [List.flatMap_cons, List.map_append, List.sum_append, ih, List.length_cons, Nat.mul_succ, Nat.add_comm]
    rfl

theorem sum_pduWidths (nacks : List Residue) :
    ((pduWidths nacks).map BitVec.toNat).sum = 15 + 11 * nacks.length := by
  simp only [pduWidths, List.map_append, List.sum_append, sum_entryWidths]
  simp
  omega

/-- The words that R123 lists for `PDU.DES`. -/
theorem map_encode_pduWidths (nacks : List Residue) (pad : Nat) :
    (([.brReset, .brRead 4, .brRead 10] ++ (nacks.flatMap fun _ => [.brRead 1, .brRead 10]) ++ [.brRead 1] ++
        (if pad = 0 then [] else [.brRead (BitVec.ofNat 32 pad)]) : List Instr).map encode) =
      encode .brReset :: ((pduWidths nacks ++ padWidths pad).map fun w => encode (.brRead w)) := by
  unfold padWidths
  split <;> simp [pduWidths, List.map_flatMap]

theorem fieldsAt_append (buf : List Byte) (p : Nat) (ws vs : List Word) :
    fieldsAt buf p (ws ++ vs) = fieldsAt buf p ws ++ fieldsAt buf (p + (ws.map BitVec.toNat).sum) vs := by
  induction ws generalizing p with
  | nil => rfl
  | cons w ws ih => simp [fieldsAt, ih, Nat.add_assoc]

theorem fieldsAt_length (buf : List Byte) (p : Nat) (ws : List Word) :
    (fieldsAt buf p ws).length = ws.length := by
  induction ws generalizing p with
  | nil => rfl
  | cons w ws ih => simp [fieldsAt, ih]

theorem ofNat_field_eq_residueWord {buf : List Byte} {p : Nat} {v : Residue} (h : v = snField buf p) :
    BitVec.ofNat 32 (field buf p 10) = residueWord v := by
  rw [← eq_snField_iff.mp h, residueWord_eq_ofNat]

theorem ofNat_field_one (buf : List Byte) (p : Nat) :
    BitVec.ofNat 32 (field buf p 1) = if bitAt buf p then 1 else 0 := by
  rw [field_one]
  cases bitAt buf p <;> rfl

/-- The reads of an E1 chain's entries return 1 and the value, entry by entry. -/
theorem fieldsAt_entries {buf : List Byte} {p : Nat} {nacks : List Residue}
    (hentry : ∀ k (hk : k < nacks.length),
      bitAt buf (p + 11 * k) = true ∧ nacks[k] = snField buf (p + 11 * k + 1)) :
    fieldsAt buf p (nacks.flatMap fun _ => [1, 10]) = nacks.flatMap fun n => [1, residueWord n] := by
  induction nacks generalizing p with
  | nil => rfl
  | cons n ns ih =>
    obtain ⟨he1, hn⟩ := hentry 0 (Nat.zero_lt_succ _)
    rw [Nat.mul_zero, Nat.add_zero] at he1 hn
    have hrest := ih (p := p + 11) fun k hk => by
      have := hentry (k + 1) (Nat.succ_lt_succ hk)
      rwa [show p + 11 * (k + 1) = p + 11 + 11 * k by omega] at this
    have he1 : BitVec.ofNat 32 (field buf p 1) = 1 := by rw [ofNat_field_one, if_pos he1]
    have hn : BitVec.ofNat 32 (field buf (p + 1) 10) = residueWord n := ofNat_field_eq_residueWord hn
    rw [List.flatMap_cons, List.flatMap_cons, fieldsAt_append, ← hrest]
    simp [fieldsAt, he1, hn]

/-- The primitive reads of a decodable buffer return what the decoder stores. -/
theorem Carries.fieldsAt_pduWidths {cap : Option Nat} {buf : List Byte} {d : Decoded}
    (h : Carries cap buf d) : fieldsAt buf 0 (pduWidths d.nacks) = pduValues d.ack d.nacks := by
  have hentries : fieldsAt buf 14 (d.nacks.flatMap fun _ => [1, 10]) =
      d.nacks.flatMap fun n => [1, residueWord n] := by
    refine fieldsAt_entries fun k hk => ?_
    rw [show 14 + 11 * k + 1 = 15 + 11 * k by omega]
    exact h.entry k hk
  have hheader : fieldsAt buf 0 [4, 10] = [0, residueWord d.ack] := by
    simp [fieldsAt, h.header, ofNat_field_eq_residueWord h.ack]
  have hfinal : fieldsAt buf (14 + 11 * d.nacks.length) [1] = [0] := by
    simp [fieldsAt, ofNat_field_one, h.finalE1]
  have hlast : ((([4, 10] : List Word) ++ d.nacks.flatMap fun _ => [1, 10]).map BitVec.toNat).sum =
      14 + 11 * d.nacks.length := by
    rw [List.map_append, List.sum_append, sum_entryWidths]
    rfl
  rw [pduWidths, fieldsAt_append, fieldsAt_append, hlast, Nat.zero_add, Nat.zero_add,
    hfinal, hheader]
  exact congrArg (fun rs => [0, residueWord d.ack] ++ rs ++ [0]) hentries

theorem pduWidths_legal {nacks : List Residue} : ∀ w ∈ pduWidths nacks, 1 ≤ w.toNat ∧ w.toNat ≤ 32 := by
  simp only [pduWidths, List.mem_append, List.mem_flatMap, List.mem_cons, List.not_mem_nil, or_false]
  rintro w (((rfl | rfl) | ⟨n, -, rfl | rfl⟩) | rfl) <;> decide

theorem padWidths_legal {pad : Nat} (hpad : pad < 8) :
    ∀ w ∈ padWidths pad, 1 ≤ w.toNat ∧ w.toNat ≤ 32 := by
  unfold padWidths
  split
  · simp
  · simp
    omega

/-- A rewind and legal reads with bits enough for all of them. -/
theorem run_reset_reads {s : State} {ws : List Word} (hlegal : ∀ w ∈ ws, 1 ≤ w.toNat ∧ w.toNat ≤ 32)
    (hleft : (ws.map BitVec.toNat).sum ≤ 8 * s.blk.rxb.length)
    (hr : s.requests = encode .brReset :: ws.map fun w => encode (.brRead w)) :
    ∃ t : State, Sys2Proof.core.run s.requests.length s = .next t ∧
      t.blk = { s.blk with rpos := (ws.map BitVec.toNat).sum } ∧
      t.responses = s.responses ++ [{ st := .ok, r := 0 }] ++
        (fieldsAt s.blk.rxb 0 ws).map fun r => { st := .ok, r := r } := by
  rw [← Nat.zero_add (ws.map BitVec.toNat).sum] at hleft ⊢
  have hlength : s.requests.length = ws.length + 1 := by simp [hr]
  have hreset := run_succ_of_encode ws.length hr rfl (brResetRewinds _)
  have hreads := run_reads (rest := []) hlegal
    (s := answered { s with requests := ws.map fun w => encode (.brRead w) } .ok 0 { s.blk with rpos := 0 })
    hleft (List.append_nil _).symm
  exact ⟨_, hlength ▸ hreset.trans hreads, rfl, rfl⟩

/-- Settles O51: the reads have their bits left, return the stored values, and end where the header does. -/
theorem pduDesIsThePrimitiveSequence : Obligations.PduDesIsThePrimitiveSequence := by
  intro s d pad hd hpad hr
  have hbuf := des_eq_ok_iff.mp hd
  have hlt : pad < 8 := by omega
  rw [map_encode_pduWidths] at hr
  have hsum : ((pduWidths d.nacks ++ padWidths pad).map BitVec.toNat).sum = 8 * d.hlen := by
    rw [List.map_append, List.sum_append, sum_pduWidths, sum_padWidths hlt, hbuf.hlen]
    omega
  have hlegal (w : Word) (hw : w ∈ pduWidths d.nacks ++ padWidths pad) : 1 ≤ w.toNat ∧ w.toNat ≤ 32 :=
    (List.mem_append.mp hw).elim (pduWidths_legal w) (padWidths_legal hlt w)
  obtain ⟨t, hrun, hblk, hresponses⟩ := run_reset_reads hlegal
    (hsum.trans_le (Nat.mul_le_mul_left 8 (des_ok_hlen hd).2)) hr
  rw [hsum] at hblk
  rw [fieldsAt_append, hbuf.fieldsAt_pduWidths, Nat.zero_add, sum_pduWidths] at hresponses
  refine ⟨t, (fieldsAt s.blk.rxb (15 + 11 * d.nacks.length) (padWidths pad)).map
      fun r => { st := .ok, r := r }, _, _, hrun, hresponses.trans ?responses, ?ok, ?one,
    exec_pduDes_of_decoded hd, ?cursor, hblk, rfl, rfl⟩
  case responses => simp [pduValues, residueWord, List.map_flatMap]
  case ok => simp
  case one =>
    rw [List.length_map, fieldsAt_length, padWidths]
    split <;> rfl
  case cursor => rw [hblk, Block.bindReader_rpos]

end Sys2Proof.Proofs

/-! PROOFS. The statements about the HeaderBuffer adapter (spec/44_header_buffer_adapter.md R131 to R133):
its two commands outcome by outcome, then the law that the one undoes the other. -/

namespace Sys2Proof.Proofs

open Sys2Proof.Machine Sys2Proof.Safety

/-! ### `HB.ATTACH` -/

section

variable {s : State}

theorem exec_hbAttach_of_full
    (h : overCap s.params.bufCap ((ser s.blk.ack s.blk.nackq).length + s.blk.pkt.length) = true) :
    exec .hbAttach s = .next (answered s (.fail .capacityExceeded) 0 s.blk) := by
  rw [exec, execHbAttach, if_pos h, raise_eq]

theorem exec_hbAttach_of_room
    (h : overCap s.params.bufCap ((ser s.blk.ack s.blk.nackq).length + s.blk.pkt.length) = false) :
    exec .hbAttach s = .next (answered s .ok (countWord (ser s.blk.ack s.blk.nackq).length)
      ((s.blk.loadWriter (serBits s.blk.ack s.blk.nackq)).prependPkt (ser s.blk.ack s.blk.nackq))) := by
  rw [exec, execHbAttach, if_neg (Bool.eq_false_iff.mp h), respond_eq]

/-- An attach that answers `OK` had room: it has put the header in front, and `R` counts its bytes. -/
theorem hbAttach_ok {r : Word} {b : Block} (h : exec .hbAttach s = .next (answered s .ok r b)) :
    r = countWord (ser s.blk.ack s.blk.nackq).length ∧
      b.pkt = ser s.blk.ack s.blk.nackq ++ s.blk.pkt := by
  cases hcap : overCap s.params.bufCap ((ser s.blk.ack s.blk.nackq).length + s.blk.pkt.length) with
  | true =>
    rw [exec_hbAttach_of_full hcap, Host.Outcome.next.injEq, answered_inj] at h
    exact nomatch h.1
  | false =>
    rw [exec_hbAttach_of_room hcap, Host.Outcome.next.injEq, answered_inj] at h
    obtain ⟨-, rfl, rfl⟩ := h
    exact ⟨rfl, rfl⟩

end

/-- Settles O52: the header's length in R62's formula, and the packet past `BUF_CAP` or within it. -/
theorem hbAttachPrependsTheHeader : Obligations.HbAttachPrependsTheHeader := by
  intro s
  rw [← ser_length_eq s.blk.ack, ← overCap_eq_true, ← overCap_eq_false]
  exact ⟨exec_hbAttach_of_full, exec_hbAttach_of_room⟩

/-! ### `HB.DETACH` -/

theorem exec_hbDetach_of_undecoded {s : State} {f : Failure}
    (h : des s.params.nackCap s.blk.pkt = .error f) :
    exec .hbDetach s = .next (answered s (.fail f) 0 s.blk) := by
  simp only [exec, execHbDetach, h, raise_eq]

/-- Settles O53: the decoder fails on the packet, or gives the PDU to store. -/
theorem hbDetachRemovesTheHeader : Obligations.HbDetachRemovesTheHeader :=
  fun _ => ⟨fun _ => exec_hbDetach_of_undecoded, fun _ => exec_hbDetach_of_decoded⟩

/-! ### Attach, then detach -/

/-- The decoder takes from the front exactly the bytes that the encoder has put there. -/
theorem des_ser_append {cap : Option Nat} (ack : Residue) {nacks : List Residue} (rest : List Byte)
    (hfits : ∀ c ∈ cap, nacks.length ≤ c) :
    des cap (ser ack nacks ++ rest) =
      .ok { ack := ack, nacks := nacks, hlen := (ser ack nacks).length } := by
  rw [ser_length_eq]
  exact decodeInvertsEncode cap ack nacks rest hfits

/-- Settles O54: the packet is the encoded PDU before the old packet, and it decodes to that PDU and the
encoding's length; dropping as many bytes leaves the old packet. -/
theorem detachUndoesAttach : Obligations.DetachUndoesAttach := by
  intro s u r b hfits hattach hpkt hparams
  obtain ⟨rfl, hb⟩ := hbAttach_ok hattach
  have hu := hpkt.trans hb
  have hdes := des_ser_append s.blk.ack s.blk.pkt hfits
  rw [← hu, ← hparams] at hdes
  refine ⟨_, exec_hbDetach_of_decoded hdes, ?_, rfl, rfl⟩
  rw [Block.dropPkt_pkt, Block.setPdu_pkt, Block.bindReader_pkt, hu, List.drop_left]

end Sys2Proof.Proofs

/-! PROOFS. `BUF.APPEND` (spec/45_system_and_buffer.md R144): the outcomes of `appendByte`, the checks that
`RXB` and `PKT` share, then the command on each space. -/

namespace Sys2Proof.Proofs

open Sys2Proof.Machine Sys2Proof.Safety

section

variable {s : State} {x : Word} {len : Nat} {b : Block}

theorem appendByte_of_overflow (hx : 256 ≤ x.toNat) :
    appendByte x len b s = .next (answered s (.fail .fieldOverflow) 0 s.blk) := by
  rw [appendByte, if_pos ((byteOverflows_iff x).mpr hx), raise_eq]

theorem appendByte_of_full (hx : x.toNat < 256) (hfull : ∃ c ∈ s.params.bufCap, c < len + 1) :
    appendByte x len b s = .next (answered s (.fail .capacityExceeded) 0 s.blk) := by
  rw [appendByte, if_neg (mt (byteOverflows_iff x).mp hx.not_ge), if_pos (overCap_eq_true.mpr hfull),
    raise_eq]

theorem appendByte_of_room (hx : x.toNat < 256) (hroom : ∀ c ∈ s.params.bufCap, len + 1 ≤ c) :
    appendByte x len b s = .next (answered s .ok 0 b) := by
  rw [appendByte, if_neg (mt (byteOverflows_iff x).mp hx.not_ge),
    if_neg (Bool.eq_false_iff.mp (overCap_eq_false.mpr hroom)), respond_eq]

end

/-- Settles O58: the host may write `RXB` and `PKT` only (R41), and on either the byte overflows, finds the
buffer full, or goes to the back. -/
theorem bufAppendAddsAtTheBack : Obligations.BufAppendAddsAtTheBack := by
  intro s x
  rw [BitVec.ofNat_toNat]
  refine ⟨fun sp hrxb hpkt => ?refused, fun hx => ⟨appendByte_of_overflow hx, appendByte_of_overflow hx⟩,
    appendByte_of_full, appendByte_of_full, appendByte_of_room, appendByte_of_room⟩
  case refused =>
    cases sp with
    | rxb => exact absurd rfl hrxb
    | pkt => exact absurd rfl hpkt
    | txb | absent n => exact raise_eq _ s

end Sys2Proof.Proofs

/-! PROOFS. The statements about failures (spec/60_exceptions.md R161, R163, R172): the checks that fail,
command by command, then the two statements, the second of which reads the same matrix by failure. -/

namespace Sys2Proof.Proofs

open Sys2Proof.Machine Sys2Proof.Safety

/-! ### Why the decoder fails -/

theorem ne_none_of_overCap {cap : Option Nat} {n : Nat} (h : overCap cap n = true) : cap ≠ none := by
  rintro rfl
  exact nomatch h

theorem ne_none_of_overBitCap {cap : Option Nat} {n : Nat} (h : overBitCap cap n = true) :
    cap ≠ none :=
  ne_none_of_overCap ((overBitCap_eq cap n).symm.trans h)

/-- The decoder's loop fails for want of bytes, or for want of room in a bounded queue. -/
theorem desChain_error {cap : Option Nat} {buf : List Byte} {fuel p : Nat} {nacks : List Residue}
    {f : Failure} (h : desChain cap buf fuel p nacks = .error f) :
    f = .truncatedInput ∨ (f = .capacityExceeded ∧ cap ≠ none) := by
  induction fuel generalizing p nacks with
  | zero => exact .inl (Except.error.inj h).symm
  | succ fuel ih =>
    rw [desChain] at h
    split at h
    · exact .inl (Except.error.inj h).symm
    split at h
    · exact nomatch h
    split at h
    · exact .inl (Except.error.inj h).symm
    split at h
    · next full => exact .inr ⟨(Except.error.inj h).symm, ne_none_of_overCap full⟩
    · exact ih h

/-- The three failures of the decoder, with their grounds (R118). -/
theorem des_error {cap : Option Nat} {buf : List Byte} {f : Failure} (h : des cap buf = .error f) :
    f = .truncatedInput ∨ (f = .invalidHeader ∧ field buf 0 4 ≠ 0) ∨
      (f = .capacityExceeded ∧ cap ≠ none) := by
  rw [des] at h
  split at h
  · exact .inl (Except.error.inj h).symm
  split at h
  · next header => exact .inr (.inl ⟨(Except.error.inj h).symm, header⟩)
  split at h
  · next e =>
    obtain rfl := Except.error.inj h
    exact (desChain_error e).imp_right .inr
  · exact nomatch h

/-! ### Which check a failing command has failed -/

/-- The failures of each command in state `s`, with the check that fails. A command that never fails has no
constructor. -/
inductive Raises (s : State) : Instr → Failure → Prop
  | csrRd (n : Word) : Raises s (.csrRd (.absent n)) .illegalCommand
  | csrWr (c : Csr) (v : Word) (readOnly : c ≠ .snbase) : Raises s (.csrWr c v) .illegalCommand
  | bwWriteWidth (w v : Word) (width : w.toNat < 1 ∨ 32 < w.toNat) :
      Raises s (.bwWrite w v) .illegalCommand
  | bwWriteFinished (w v : Word) (finished : s.blk.wfin = true) : Raises s (.bwWrite w v) .illegalState
  | bwWriteValue (w v : Word) (value : 2 ^ w.toNat ≤ v.toNat) : Raises s (.bwWrite w v) .fieldOverflow
  | bwWriteFull (w v : Word) (full : overBitCap s.params.bufCap (s.blk.wpos + w.toNat) = true) :
      Raises s (.bwWrite w v) .capacityExceeded
  | bwFinish (finished : s.blk.wfin = true) : Raises s .bwFinish .illegalState
  | brReadWidth (w : Word) (width : w.toNat < 1 ∨ 32 < w.toNat) : Raises s (.brRead w) .illegalCommand
  | brReadShort (w : Word) (short : 8 * s.blk.rxb.length < s.blk.rpos + w.toNat) :
      Raises s (.brRead w) .truncatedInput
  | pduPushnack (raw : Word) (full : overCap s.params.nackCap (s.blk.nackq.length + 1) = true) :
      Raises s (.pduPushnack raw) .capacityExceeded
  | pduDes (f : Failure) (undecoded : des s.params.nackCap s.blk.rxb = .error f) : Raises s .pduDes f
  | hbAttach (full : overCap s.params.bufCap
        ((ser s.blk.ack s.blk.nackq).length + s.blk.pkt.length) = true) :
      Raises s .hbAttach .capacityExceeded
  | hbDetach (f : Failure) (undecoded : des s.params.nackCap s.blk.pkt = .error f) : Raises s .hbDetach f
  | bufClear (sp : Space) (hrxb : sp ≠ .rxb) (hpkt : sp ≠ .pkt) : Raises s (.bufClear sp) .illegalCommand
  | bufAppendSpace (sp : Space) (x : Word) (hrxb : sp ≠ .rxb) (hpkt : sp ≠ .pkt) :
      Raises s (.bufAppend sp x) .illegalCommand
  | bufAppendByte (sp : Space) (x : Word) (byte : 256 ≤ x.toNat) :
      Raises s (.bufAppend sp x) .fieldOverflow
  | bufAppendFull (sp : Space) (x : Word) (buf : List Byte) (content : readableSpace s.blk sp = .ok buf)
      (full : overCap s.params.bufCap (buf.length + 1) = true) :
      Raises s (.bufAppend sp x) .capacityExceeded
  | bufLdSpace (sp : Space) (x : Word) (f : Failure) (unreadable : readableSpace s.blk sp = .error f) :
      Raises s (.bufLd sp x) f
  | bufLdIndex (sp : Space) (x : Word) (buf : List Byte) (content : readableSpace s.blk sp = .ok buf)
      (beyond : buf.length ≤ x.toNat) : Raises s (.bufLd sp x) .indexOutOfRange
  | bufLen (sp : Space) (f : Failure) (unreadable : readableSpace s.blk sp = .error f) :
      Raises s (.bufLen sp) f

/-- The ways a command ends, as far as failures go: it returns, or it raises one of its failures. -/
inductive Answers (i : Instr) (s : State) : Host.Outcome State Fault Refusal → Prop
  | returns (r : Word) (b : Block) : Answers i s (respond s b r)
  | raises (f : Failure) (check : Raises s i f) : Answers i s (raise f s)

/-- The checks of `BUF.APPEND` on a space that the host may write, and so may read (R41). -/
theorem appendByte_answers {s : State} {sp : Space} {buf : List Byte} (x : Word) (b : Block)
    (content : readableSpace s.blk sp = .ok buf) :
    Answers (.bufAppend sp x) s (appendByte x buf.length b s) := by
  obtain ⟨byte, e⟩ | ⟨_, full, e⟩ | ⟨_, _, e⟩ := appendByte_cases x buf.length b s <;> rw [e]
  · exact .raises _ (.bufAppendByte sp x byte)
  · exact .raises _ (.bufAppendFull sp x buf content full)
  · exact .returns _ _

/-- R172's matrix, command by command. -/
theorem exec_answers (i : Instr) (s : State) : Answers i s (exec i s) := by
  cases i with
  | csrRd c =>
    cases c with
    | absent n => exact .raises _ (.csrRd n)
    | _ => exact .returns _ _
  | csrWr c v =>
    cases c with
    | snbase => exact .returns _ _
    | _ => exact .raises _ (.csrWr _ v nofun)
  | bwWrite w v =>
    simp only [exec]
    obtain ⟨width, e⟩ | ⟨_, ⟨finished, e⟩ | ⟨_, ⟨value, e⟩ | ⟨_, ⟨full, e⟩ | ⟨_, e⟩⟩⟩⟩ :=
      execBwWrite_cases w v s <;> rw [e]
    · exact .raises _ (.bwWriteWidth w v (by omega))
    · exact .raises _ (.bwWriteFinished w v finished)
    · exact .raises _ (.bwWriteValue w v value)
    · exact .raises _ (.bwWriteFull w v full)
    · exact .returns _ _
  | bwFinish =>
    simp only [exec, execBwFinish]
    split
    · next finished => exact .raises _ (.bwFinish finished)
    · exact .returns _ _
  | brRead w =>
    simp only [exec]
    obtain ⟨width, e⟩ | ⟨_, ⟨short, e⟩ | ⟨_, e⟩⟩ := execBrRead_cases w s <;> rw [e]
    · exact .raises _ (.brReadWidth w (by omega))
    · exact .raises _ (.brReadShort w short)
    · exact .returns _ _
  | pduPushnack raw =>
    simp only [exec, execPduPushnack]
    split
    · next full => exact .raises _ (.pduPushnack raw full)
    · exact .returns _ _
  | pduPopnack =>
    simp only [exec, execPduPopnack]
    split <;> exact .returns _ _
  | pduDes =>
    simp only [exec, execPduDes]
    split
    · next f undecoded => exact .raises f (.pduDes f undecoded)
    · exact .returns _ _
  | hbAttach =>
    simp only [exec, execHbAttach]
    split
    · next full => exact .raises _ (.hbAttach full)
    · exact .returns _ _
  | hbDetach =>
    simp only [exec, execHbDetach]
    split
    · next f undecoded => exact .raises f (.hbDetach f undecoded)
    · exact .returns _ _
  | bufClear sp =>
    cases sp with
    | rxb | pkt => exact .returns _ _
    | txb | absent n => exact .raises _ (.bufClear _ nofun nofun)
  | bufAppend sp x =>
    cases sp with
    | rxb | pkt => exact appendByte_answers x _ rfl
    | txb | absent n => exact .raises _ (.bufAppendSpace _ x nofun nofun)
  | bufLd sp x =>
    simp only [exec, execBufLd]
    split
    · next f unreadable => exact .raises f (.bufLdSpace sp x f unreadable)
    · next buf content =>
      split
      · next beyond =>
        exact .raises _ (.bufLdIndex sp x buf content (List.getElem?_eq_none_iff.mp beyond))
      · exact .returns _ _
  | bufLen sp =>
    simp only [exec, execBufLen]
    split
    · next f unreadable => exact .raises f (.bufLen sp f unreadable)
    · exact .returns _ _
  | sysReset | snCreate | snAdd | snSub | snCmp | bwReset | brReset | brRemain | pduClear | pduSetack
  | pduGetack | pduSer => exact .returns _ _

/-- What a failed answer tells: the check that failed, and that nothing else has happened. -/
theorem exec_failed {i : Instr} {s : State} {f : Failure} {r : Word} {b : Block}
    (h : exec i s = .next (answered s (.fail f) r b)) : Raises s i f ∧ r = 0 ∧ b = s.blk := by
  have e := exec_answers i s
  generalize exec i s = o at h e
  cases e with
  | returns => exact nomatch (respond_answered.mp h).1
  | raises f' check =>
    obtain ⟨hf, hr, hb⟩ := raise_answered.mp h
    obtain rfl := Status.fail.inj hf
    exact ⟨check, hr, hb⟩

/-! ### The statements -/

/-- Settles O9: a failure is a `raise`. -/
theorem failedCommandChangesNoState : Obligations.FailedCommandChangesNoState :=
  fun _ _ _ _ _ h => (exec_failed h).2

/-- Settles O10: the failed checks of each command, sorted by the failure that they report. -/
theorem failuresHaveTheirCauses : Obligations.FailuresHaveTheirCauses := by
  intro i s f r b h
  cases (exec_failed h).1 with
  | bwWriteValue w v value => exact .inl ⟨w, v, rfl, value⟩
  | bufAppendByte sp x byte => exact .inr ⟨sp, x, rfl, byte⟩
  | brReadShort w short => exact .inl ⟨w, rfl, short⟩
  | bwWriteWidth w v width => exact .inl ⟨w, v, rfl, width⟩
  | brReadWidth w width => exact .inr (.inl ⟨w, rfl, width⟩)
  | csrRd n => exact .inr (.inr (.inl ⟨n, rfl⟩))
  | csrWr c v readOnly => exact .inr (.inr (.inr (.inl ⟨c, v, rfl, readOnly⟩)))
  | bufClear sp hrxb hpkt => exact .inr (.inr (.inr (.inr (.inl ⟨sp, rfl, hrxb, hpkt⟩))))
  | bufAppendSpace sp x hrxb hpkt =>
    exact .inr (.inr (.inr (.inr (.inr (.inl ⟨sp, x, rfl, hrxb, hpkt⟩)))))
  | bwFinish finished => exact .inl ⟨finished, .inl rfl⟩
  | bwWriteFinished w v finished => exact .inl ⟨finished, .inr ⟨w, v, rfl⟩⟩
  | hbAttach full => exact .inl ⟨ne_none_of_overCap full, .inl rfl⟩
  | bwWriteFull w v full => exact .inl ⟨ne_none_of_overBitCap full, .inr (.inl ⟨w, v, rfl⟩)⟩
  | bufAppendFull sp x buf content full =>
    exact .inl ⟨ne_none_of_overCap full, .inr (.inr ⟨sp, x, rfl⟩)⟩
  | pduPushnack raw full => exact .inr ⟨ne_none_of_overCap full, .inr (.inr ⟨raw, rfl⟩)⟩
  | bufLdIndex sp x buf content beyond => exact ⟨sp, x, rfl⟩
  | pduDes _ undecoded =>
    obtain rfl | ⟨rfl, header⟩ | ⟨rfl, finite⟩ := des_error undecoded
    · exact .inr (.inl ⟨rfl, undecoded⟩)
    · exact .inl ⟨rfl, header⟩
    · exact .inr ⟨finite, .inl rfl⟩
  | hbDetach _ undecoded =>
    obtain rfl | ⟨rfl, header⟩ | ⟨rfl, finite⟩ := des_error undecoded
    · exact .inr (.inr ⟨rfl, undecoded⟩)
    · exact .inr ⟨rfl, header⟩
    · exact .inr ⟨finite, .inr (.inl rfl)⟩
  | bufLdSpace sp x _ unreadable =>
    obtain ⟨rfl, unfinished, rfl⟩ | ⟨⟨n, rfl⟩, rfl⟩ := readableSpace_error.mp unreadable
    · exact .inr ⟨unfinished, .inr ⟨x, rfl⟩⟩
    · exact .inr (.inr (.inr (.inr (.inr (.inr (.inl ⟨n, x, rfl⟩))))))
  | bufLen sp _ unreadable =>
    obtain ⟨rfl, unfinished, rfl⟩ | ⟨⟨n, rfl⟩, rfl⟩ := readableSpace_error.mp unreadable
    · exact .inr ⟨unfinished, .inl rfl⟩
    · exact .inr (.inr (.inr (.inr (.inr (.inr (.inr ⟨n, rfl⟩))))))

end Sys2Proof.Proofs

/-! PROOFS. The statement about whole runs (spec/70_reset_and_hazards.md R192): one step for each issued word,
whether it decodes or not. -/

namespace Sys2Proof.Proofs

open Sys2Proof.Machine Sys2Proof.Safety

/-- The word that is taken is answered once, the command it decodes to or its rejection (R72). -/
theorem step_of_requests_cons {s : State} {cw : CommandWord} {rest : List CommandWord}
    (hr : s.requests = cw :: rest) :
    ∃ (st : Status) (r : Word) (b : Block),
      step s = .next (answered { s with requests := rest } st r b) := by
  cases hd : decode cw with
  | ok i =>
    obtain ⟨st, r, b, h⟩ := everyCommandAnswersOnce i { s with requests := rest }
    exact ⟨st, r, b, (step_of_decode_ok hr hd).trans h⟩
  | error e => exact ⟨_, _, _, step_of_decode_error hr hd⟩

/-- Settles O14, by induction on the words waiting: the first is taken and answered once, and the run goes on
from the state that leaves. -/
theorem finiteRunAnswersEveryWord : Obligations.FiniteRunAnswersEveryWord := by
  intro s
  generalize hr : s.requests = words
  induction words generalizing s with
  | nil => exact ⟨s, [], run_zero s, hr, rfl, (List.append_nil _).symm, rfl⟩
  | cons cw rest ih =>
    obtain ⟨st, r, b, hstep⟩ := step_of_requests_cons hr
    obtain ⟨t, new, hrun, hempty, hparams, hresponses, hlength⟩ :=
      ih (answered { s with requests := rest } st r b) rfl
    refine ⟨t, { st := st, r := r } :: new, ?run, hempty, hparams, ?responses, ?length⟩
    case run => exact (run_succ rest.length hstep).trans hrun
    case responses => rw [hresponses, List.append_assoc, List.singleton_append]
    case length => rw [List.length_cons, List.length_cons, hlength]

end Sys2Proof.Proofs
